-- ==== Sys2Proof/Word.lean ====
section
/-! DEFINITION. The word types of the engine: host words, channel bytes, pixels, port addresses. -/

namespace Sys2Proof

/-- A host word and a command word: 32 bits (00_scope.md R4). -/
abbrev Word := BitVec 32

/-- A channel value and a key: 8 bits, unsigned (00_scope.md R3). -/
abbrev Byte := BitVec 8

/-- A pixel: 24 bits, R in [23:16], G in [15:8], B in [7:0] (10_state.md R20). -/
abbrev Pixel := BitVec 24

/-- Bits [26:2] of a byte offset: the port has no address bits 1 and 0, so a misaligned access
cannot be written down (20_memory.md R30, R36). -/
abbrev PortAddr := BitVec 25

end Sys2Proof
end

