-- ==== Sys2Proof/Config.lean ====
section
/-! DEFINITION. What an implementation fixes, and the free values. -/

namespace Sys2Proof

/-- The largest `NMAX` an implementation may have (00_scope.md R2). -/
def Config.maxCapacity : Nat := 2 ^ 24

/-- `NMAX` of the reference configuration, which every test vector uses (00_scope.md R2).
DESIGN CHOICE (log 3), unsafe for a claim about `State.reset` alone: `NMAX` is a parameter, so the
model holds it in `State.cap` and this number only in `State.reset`. -/
def Config.refCapacity : Word := 0x0001_0000

/-- FREE VALUE: the key source `KeyDraw`, one value for each draw (00_scope.md R2; 43_transform.md R100).
`keySource n` stands for the drawn key `n`-th `+ 1`, so that a drawn key is any value of [1, 255]
and no other law holds. DESIGN CHOICE (log 5), safe. -/
opaque Config.keySource : Nat → Fin 255

/-- FREE VALUE: what a channel byte of the pixel memory holds after reset, given the number of the
reset and the channel's address (10_state.md R27; 93_implementation_defined.md V1, V2).
DESIGN CHOICE (log 4), safe. -/
opaque Config.freeByte : Nat → Nat → Byte

end Sys2Proof
end

