-- ==== Sys2Proof/Syntax.lean ====
section
/-! DEFINITION. The commands, the fields of a command word, the host's port transactions and the
host-program notation, as syntax. -/

namespace Sys2Proof

/-- The ten commands, one constructor per row of the opcode map (30_encoding.md R52). A command word
has no operand field (R53), so no constructor takes an argument. -/
inductive Instr where
  | nop
  | mask
  | permute
  | unpermute
  | embed
  | extract
  | genkey
  | encrypt
  | decrypt
  | clrf
deriving DecidableEq, Repr

/-- The two fields of a command word (30_encoding.md R50): `RSV` in [31:8], `OP` in [7:0]. -/
structure CmdFields where
  rsv : BitVec 24
  op : Byte
deriving DecidableEq, Repr

/-- A port transaction (20_memory.md R30): always one whole aligned 32-bit word. -/
inductive PortTx where
  | read (addr : PortAddr)
  | write (addr : PortAddr) (v : Word)
deriving DecidableEq, Repr

/-- What the outside world does to the engine (00_scope.md R5): a port transaction, or reset.
`reset (some t)` is a reset that falls while the transaction `t` is being performed: `t` is
abandoned and never acknowledged (70_reset_and_hazards.md R140). -/
inductive HostEvent where
  | tx (t : PortTx)
  | reset (cut : Option PortTx)
deriving DecidableEq, Repr

/-- The register names of the host-program notation (30_encoding.md R57). -/
inductive Reg where
  | cmd | status | key | npix | cap | fcmd
deriving DecidableEq, Repr

/-- One line of a host program: one port transaction (30_encoding.md R57). -/
inductive HostLine where
  | wr (r : Reg) (v : Word)
  | rd (r : Reg)
  | wrpix (i : Nat) (v : Word)
  | rdpix (i : Nat)
  | command (i : Instr)
deriving DecidableEq, Repr

/-- The pseudo-instructions (30_encoding.md R58). -/
inductive Pseudo where
  | ldkey (k : Word)
  | setn (n : Word)
  | load (i0 : Nat) (vs : List Word)
  | encryptk (k : Word)
  | decrypts
deriving DecidableEq, Repr

end Sys2Proof
end

