-- ==== Sys2Proof/WellFormed.lean ====
section
/-! DEFINITION. The checks a command word's fields, a command and a host-program line must pass. -/

namespace Sys2Proof

/-- The fields of one of the ten command words: `RSV` is 0 and `OP` at most 0x09 (30_encoding.md R50, R54). -/
def CmdFields.wf (f : CmdFields) : Bool := f.rsv = 0 && f.op ≤ 0x09

/-- A command carries no operand (30_encoding.md R53), so there is nothing to check in it beyond its
being one of the ten; the checks are on the fields of a word, `CmdFields.wf`. -/
def Instr.wf : Instr → Bool
  | .nop | .mask | .permute | .unpermute | .embed => true
  | .extract | .genkey | .encrypt | .decrypt | .clrf => true

/-- A line of the host-program notation is expressible at the port: a pixel index must be below `2^24`,
so that `PIXBASE + 4*i` is a 27-bit offset (20_memory.md R30, R31; 30_encoding.md R57). -/
def HostLine.wf : HostLine → Bool
  | .wr _ _ | .rd _ => true
  | .wrpix i _ | .rdpix i => i < Config.maxCapacity
  | .command i => i.wf

/-- Every line a pseudo-instruction expands to is expressible (30_encoding.md R58). -/
def Pseudo.wf : Pseudo → Bool
  | .load i0 vs => i0 + vs.length ≤ Config.maxCapacity
  | .ldkey _ | .setn _ | .encryptk _ | .decrypts => true

end Sys2Proof
end

