-- ==== Sys2Proof/Decode.lean ====
section
/-! DEFINITION. The command decoder, total on every 32-bit word and rejecting by name, and the encoder. -/

namespace Sys2Proof

/-- Why a word is none of the ten command words (30_encoding.md R54). -/
inductive DecodeReject where
  /-- `w[31:8] != 0` -/
  | reservedBits
  /-- `w[31:8] = 0` and `w[7:0]` in 0x0A .. 0xFF -/
  | undefinedOp
deriving DecidableEq, Repr

/-- The fields of a command word (30_encoding.md R50). -/
def CmdFields.ofWord (w : Word) : CmdFields :=
  { rsv := w.extractLsb' 8 24, op := w.extractLsb' 0 8 }

/-- The word with the given fields (30_encoding.md R50). -/
def CmdFields.toWord (f : CmdFields) : Word := f.rsv ++ f.op

/-- The command an `OP` value names (30_encoding.md R52); `none` from 0x0A up (R54). -/
def instrOfOp (op : Byte) : Option Instr :=
  match op.toNat with
  | 0x00 => some .nop
  | 0x01 => some .mask
  | 0x02 => some .permute
  | 0x03 => some .unpermute
  | 0x04 => some .embed
  | 0x05 => some .extract
  | 0x06 => some .genkey
  | 0x07 => some .encrypt
  | 0x08 => some .decrypt
  | 0x09 => some .clrf
  | _ => none

/-- The decoder (30_encoding.md R51, R52, R54): the match is on all 32 bits. A latched fault does not
change how a word is decoded (R55). -/
def decode (w : Word) : Except DecodeReject Instr :=
  let f := CmdFields.ofWord w
  if f.rsv ≠ 0 then .error .reservedBits
  else match instrOfOp f.op with
    | some i => .ok i
    | none => .error .undefinedOp

/-- The `OP` value of a command (30_encoding.md R52). -/
def Instr.opcode : Instr → Byte
  | .nop => 0x00
  | .mask => 0x01
  | .permute => 0x02
  | .unpermute => 0x03
  | .embed => 0x04
  | .extract => 0x05
  | .genkey => 0x06
  | .encrypt => 0x07
  | .decrypt => 0x08
  | .clrf => 0x09

/-- The command word of a command: `RSV` is 0 (30_encoding.md R50, R52). -/
def encode (i : Instr) : Word := CmdFields.toWord { rsv := 0, op := i.opcode }

/-- The command word that the low `nbits` bits of `w` give, every bit above them 0. The engine has one
word length, 32 bits, and reads no memory for it, so there is no byte order (30_encoding.md R55;
20_memory.md R35). `none` for a number that does not fit a command word. -/
def tableWord (nbits w : Nat) : Option Word :=
  let v := w % 2 ^ nbits
  if v < 2 ^ 32 then some (BitVec.ofNat 32 v) else none

/-- The instruction the decoder reads from a row of the opcode table. -/
def decodeTableWord (nbits w : Nat) : Option Instr :=
  match tableWord nbits w with
  | none => none
  | some v =>
    match decode v with
    | .ok i => some i
    | .error _ => none

end Sys2Proof
end

