-- ==== Sys2Proof/Machine/State.lean ====
section
/-! DEFINITION. The engine's state as plain data, the causes of a fault, the reasons a step can stop, and
the state after reset. -/

namespace Sys2Proof.Machine

/-- The three faults a command raises (60_exceptions.md R120). They are latched in `STATUS` and end no
run: a step that raises one answers a next state. -/
inductive Cause where
  /-- `EMBED`, `EXTRACT`, `ENCRYPT`, `DECRYPT` with `NPIX < 8` (60_exceptions.md R123). -/
  | insufficientPixels
  /-- a datapath command with `NPIX > NMAX` (60_exceptions.md R124). -/
  | badLength
  /-- a word that is none of the ten command words (60_exceptions.md R125). -/
  | illegalCommand
deriving DecidableEq, Repr

/-- The three channels of a pixel (00_scope.md R3; 10_state.md R20). -/
inductive Channel where
  | red | green | blue
deriving DecidableEq, Repr

/-- How a port transaction ended (20_memory.md R30, R32). -/
inductive Response where
  /-- a write answered `OK` -/
  | okWrite
  /-- a read answered `OK`, with the word it returns -/
  | okRead (v : Word)
  /-- `ERR`: an unmapped offset; a read carries no data (93_implementation_defined.md V5) -/
  | err
deriving DecidableEq, Repr

/-- Channel bytes by address, in one canonical form: addresses strictly rising. An address that is not
listed has not been written since reset (log 4, log 7). -/
abbrev Memory := List Host.Cell

/-- The engine's state. INVENTORY.md, under State, gives the rule that names each field. -/
structure State where
  /-- `KEY`, 8 bits (10_state.md R11) -/
  key : Byte
  /-- `NPIX`, 32 bits, any value (10_state.md R13) -/
  npix : Word
  /-- `STATUS.FAULT` (10_state.md R15) -/
  fault : Bool
  /-- `STATUS.ERRCODE` (10_state.md R15) -/
  errcode : BitVec 4
  /-- `FCMD`, 32 bits (10_state.md R17) -/
  fcmd : Word
  /-- `CAP`, the constant `zext_32(NMAX)` (10_state.md R18; 00_scope.md R2) -/
  cap : Word
  /-- `PIX`: the channel bytes written since reset (10_state.md R20) -/
  mem : Memory
  /-- the model's own: the number of resets, which selects the unspecified pixel contents (log 4) -/
  epoch : Nat
  /-- the model's own: the number of draws taken from `KeyDraw` (log 5) -/
  draws : Nat
  /-- what the outside world does next, first event first (00_scope.md R5, R6; log 1) -/
  pending : List HostEvent
  /-- the response of the last port transaction since reset (20_memory.md R30; log 8) -/
  resp : Option Response
deriving DecidableEq, Repr

/-- Reasons a step stops with a fault: none. Every fault of the spec is latched in `STATUS` and the
engine goes on (60_exceptions.md R128), an unmapped offset is answered `ERR` (20_memory.md R32), and the
engine cannot hang (70_reset_and_hazards.md R151); so no constructor is raised by anyone (log 8). -/
inductive Fault where
deriving DecidableEq, Repr

/-- Reasons a step is refused. -/
inductive Refusal where
  /-- An arm of `exec` for an instruction that has no meaning yet; safe. No arm uses it: all ten commands
  have their meaning. -/
  | notModelled (mnemonic : String)
deriving DecidableEq, Repr

/-- What a step, a command and a transaction answer. -/
abbrev Result := Host.Outcome State Fault Refusal

/-- The state right after reset (10_state.md R27; 70_reset_and_hazards.md R140, R141): idle, no fault
latched, no pixel written. `cap` is the reference configuration (log 3); `epoch`, `draws`, `pending`
and `resp` are DESIGN CHOICES (logs 4, 5, 1, 8). -/
def State.reset : State where
  key := 0x00
  npix := 0
  fault := false
  errcode := 0
  fcmd := 0
  cap := Config.refCapacity
  mem := []
  epoch := 0
  draws := 0
  pending := []
  resp := none

end Sys2Proof.Machine
end

