-- ==== Sys2Proof/Machine/Flags.lean ====
section
/-! DEFINITION. The codes of the faults and the `STATUS` word. -/

namespace Sys2Proof.Machine

/-- `code(E)` of a fault (60_exceptions.md R120, R121). -/
def Cause.code : Cause → BitVec 4
  | .insufficientPixels => 1
  | .badLength => 2
  | .illegalCommand => 3

/-- The `STATUS` word `{20'b0, ERRCODE, 7'b0, FAULT}`: the reserved bits read 0 (10_state.md R15;
20_memory.md R33). -/
def State.status (s : State) : Word :=
  0#20 ++ s.errcode ++ 0#7 ++ BitVec.ofBool s.fault

end Sys2Proof.Machine
end

