-- ==== Sys2Proof/Machine/Ops.lean ====
section
/-! DEFINITION. The named operations over the pixel memory, the draw, and the entry into and return from a
fault. -/

namespace Sys2Proof.Machine

/-- The byte listed at an address; `none` where nothing was written since reset. -/
def Memory.byte? : Memory → Nat → Option Byte
  | [], _ => none
  | (a', b) :: m, a => if a = a' then some b else Memory.byte? m a

/-- Writes one byte, keeping the addresses strictly rising. -/
def Memory.write : Memory → Nat → Byte → Memory
  | [], a, b => [(a, b)]
  | (a', b') :: m, a, b =>
    if a < a' then (a, b) :: (a', b') :: m
    else if a = a' then (a, b) :: m
    else (a', b') :: Memory.write m a b

/-- Writes every address below `n` at once, keeping the addresses strictly rising. -/
def Memory.replaceBelow (m : Memory) (n : Nat) (f : Nat → Byte) : Memory :=
  (List.range n).map (fun a => (a, f a)) ++ m.filter (fun c => decide (n ≤ c.1))

/-- The canonical form: addresses strictly rising (log 7). -/
abbrev Memory.wf (m : Memory) : Prop := m.Pairwise (fun c d => c.1 < d.1)

/-- Position of a channel inside a pixel: R, G, B. DESIGN CHOICE (log 6), safe: not observable. -/
def Channel.index : Channel → Nat
  | .red => 0
  | .green => 1
  | .blue => 2

/-- The address of a channel of `PIX[i]` in the pixel memory: three bytes a pixel, no fourth
(10_state.md R20). DESIGN CHOICE (log 6), safe: not observable. -/
def chanAddr (i : Nat) (c : Channel) : Nat := 3 * i + c.index

/-- The byte a channel address holds: the written one, else the unspecified value of this reset, the
same on every read (10_state.md R20, R27; log 4). -/
def State.byteAt (s : State) (a : Nat) : Byte :=
  match s.mem.byte? a with
  | some b => b
  | none => Config.freeByte s.epoch a

/-- Writes one channel byte. -/
def State.setByte (s : State) (a : Nat) (b : Byte) : State :=
  { s with mem := s.mem.write a b }

/-- `PIX[i]`, the pixel `{R, G, B}` (10_state.md R20). -/
def State.pixel (s : State) (i : Nat) : Pixel :=
  s.byteAt (chanAddr i .red) ++ s.byteAt (chanAddr i .green) ++ s.byteAt (chanAddr i .blue)

/-- The byte of a pixel at a channel position: R = [23:16], G = [15:8], B = [7:0] (10_state.md R20). -/
def pixelByte (p : Pixel) (c : Nat) : Byte := p.extractLsb' (8 * (2 - c)) 8

/-- `PIX[i] <- p`: all three channels at once (20_memory.md R37). -/
def State.setPixel (s : State) (i : Nat) (p : Pixel) : State :=
  ((s.setByte (chanAddr i .red) (pixelByte p 0)).setByte (chanAddr i .green)
    (pixelByte p 1)).setByte (chanAddr i .blue) (pixelByte p 2)

/-- `PIX[i] <- f i` for every `i < n`, simultaneously: `f` is over the old pixels (00_scope.md
section 6, `old PIX`). -/
def State.setPixels (s : State) (n : Nat) (f : Nat → Pixel) : State :=
  { s with mem := s.mem.replaceBelow (3 * n) (fun a => pixelByte (f (a / 3)) (a % 3)) }

/-- The `n`-th value of the key source: any value of [1, 255] (00_scope.md R2; log 5). -/
def keyDraw (n : Nat) : Byte := BitVec.ofNat 8 ((Config.keySource n).val + 1)

/-- `KEY <- draw(KeyDraw)` (43_transform.md R100): takes one draw. -/
def drawKey (s : State) : State :=
  { s with key := keyDraw s.draws, draws := s.draws + 1 }

/-- `raise E(w)`: entry into a fault (60_exceptions.md R121, R128). It saves the cause in
`STATUS.ERRCODE` and the command word in `FCMD`; control goes nowhere. -/
def raise (e : Cause) (w : Word) (s : State) : State :=
  { s with fault := true, errcode := e.code, fcmd := w }

/-- Return from a fault (44_system.md R111; 60_exceptions.md R129): it re-arms the decoder and restores
nothing. -/
def clearFault (s : State) : State :=
  { s with fault := false, errcode := 0, fcmd := 0 }

/-- While a fault is latched every command but `CLRF` is ignored: no state changes at all
(30_encoding.md R51; 60_exceptions.md R126; log 9). -/
def unlessLatched (s : State) (body : State → State) : State :=
  if s.fault then s else body s

end Sys2Proof.Machine
end

