-- ==== Sys2Proof/Machine/Operands.lean ====
section
/-! DEFINITION. The implicit operands of the commands and the operand check. -/

namespace Sys2Proof.Machine

/-- `N`, the length of the pixel sequence `PIX[0 .. NPIX)` (00_scope.md R7; 10_state.md R13). -/
def State.seqLen (s : State) : Nat := s.npix.toNat

/-- `NMAX`, the capacity of the pixel memory (00_scope.md R2; 10_state.md R18). -/
def State.nmax (s : State) : Nat := s.cap.toNat

/-- `{k, k, k}`, the mask of one pixel (41_masker.md R80). -/
def keyMask (k : Byte) : Pixel := k ++ k ++ k

/-- The key bit slot `i` carries: bit `7 - i`, the MSB in slot 0 (40_keycodec.md R74). -/
def slotKeyBit (k : Byte) (i : Nat) : Bool := k.getLsbD (7 - i)

/-- The bit slot `i` holds: bit 0 of the blue channel of `PIX[i]` (40_keycodec.md R74). -/
def State.slotBit (s : State) (i : Nat) : Bool := (s.byteAt (chanAddr i .blue)).getLsbD 0

/-- `(b AND 0xFE) OR zext_8(bit)` (40_keycodec.md R70). -/
def withBit0 (b : Byte) (bit : Bool) : Byte := (b &&& 0xFE) ||| (BitVec.ofBool bit).setWidth 8

/-- The number of embedding slots (00_scope.md R3). -/
def slotCount : Nat := 8

/-- `CheckLen(min, w)`, the check at the head of every datapath command, before its first state change
(60_exceptions.md R122; the order is R127). -/
def checkLen (min : Nat) (w : Word) (s : State) (body : State → State) : State :=
  if s.nmax < s.seqLen then raise .badLength w s
  else if s.seqLen < min then raise .insufficientPixels w s
  else body s

end Sys2Proof.Machine
end

