-- ==== Sys2Proof/Machine/KeyCodec.lean ====
section
/-! DEFINITION. The KeyCodec: the commands EMBED and EXTRACT. -/

namespace Sys2Proof.Machine

/-- Writes the key bits of the listed slots (40_keycodec.md R70, R74). -/
def embedSlots : List Nat → State → State
  | [], s => s
  | i :: is, s =>
    let a := chanAddr i .blue
    embedSlots is (s.setByte a (withBit0 (s.byteAt a) (slotKeyBit s.key i)))

/-- Writes the key into the 8 slots (40_keycodec.md R70). -/
def embedKey (s : State) : State := embedSlots (List.range slotCount) s

/-- The 8 slot bits in index order, the MSB first (40_keycodec.md R71, R74). -/
def State.slotKey (s : State) : Byte :=
  BitVec.ofBool (s.slotBit 0) ++ BitVec.ofBool (s.slotBit 1) ++ BitVec.ofBool (s.slotBit 2) ++
  BitVec.ofBool (s.slotBit 3) ++ BitVec.ofBool (s.slotBit 4) ++ BitVec.ofBool (s.slotBit 5) ++
  BitVec.ofBool (s.slotBit 6) ++ BitVec.ofBool (s.slotBit 7)

/-- Reads the 8 slots into `KEY` (40_keycodec.md R71). -/
def extractKey (s : State) : State := { s with key := s.slotKey }

/-- `EMBED` (40_keycodec.md R70). -/
def execEmbed (s : State) : Result :=
  .next (unlessLatched s fun s => checkLen slotCount (encode .embed) s embedKey)

/-- `EXTRACT` (40_keycodec.md R71). -/
def execExtract (s : State) : Result :=
  .next (unlessLatched s fun s => checkLen slotCount (encode .extract) s extractKey)

end Sys2Proof.Machine
end

