-- ==== Sys2Proof/Machine/Masker.lean ====
section
/-! DEFINITION. The Masker: the command MASK. -/

namespace Sys2Proof.Machine

/-- Every channel of every pixel of the sequence XOR `KEY` (41_masker.md R80, R83). -/
def maskPixels (s : State) : State :=
  s.setPixels s.seqLen (fun i => s.pixel i ^^^ keyMask s.key)

/-- `MASK` (41_masker.md R80). -/
def execMask (s : State) : Result :=
  .next (unlessLatched s fun s => checkLen 0 (encode .mask) s maskPixels)

end Sys2Proof.Machine
end

