-- ==== Sys2Proof/Machine/Shuffler.lean ====
section
/-! DEFINITION. The Shuffler: the permutation generator and the commands PERMUTE and UNPERMUTE. The
generator's state and the permutation are local to a step (42_shuffler.md R90; log 11). -/

namespace Sys2Proof.Machine

/-- `Seed(k)` (42_shuffler.md R85). -/
def genSeed (k : Byte) : Word := 0x9E37_79B9 ^^^ k.setWidth 32

/-- `Next(s)`, three shift-XOR steps on 32 bits (42_shuffler.md R86). -/
def genNext (s : Word) : Word :=
  let s1 := s ^^^ (s <<< 13)
  let s2 := s1 ^^^ (s1 >>> 17)
  s2 ^^^ (s2 <<< 5)

/-- `swap(P[i], P[j])` (42_shuffler.md R87); `swap(P[i], P[i])` changes nothing. -/
def swapCells (P : List Nat) (i j : Nat) : List Nat :=
  (P.set i (P.getD j 0)).set j (P.getD i 0)

/-- The loop of `GenPerm` from index `i` down to 1: the generator is stepped before each use and
`j = S mod (i + 1)` (42_shuffler.md R87). -/
def shuffleDown : Nat → Word → List Nat → List Nat
  | 0, _, P => P
  | i + 1, S, P =>
    let S' := genNext S
    shuffleDown i S' (swapCells P (i + 1) (S'.toNat % (i + 2)))

/-- `GenPerm(k, n)` (42_shuffler.md R87, R90): from the identity, with a generator seeded anew. -/
def genPerm (k : Byte) (n : Nat) : List Nat :=
  shuffleDown (n - 1) (genSeed k) (List.range n)

/-- The gather `PIX[i] <- old PIX[P[i]]` (42_shuffler.md R91). -/
def permutePixels (s : State) : State :=
  let P := genPerm s.key s.seqLen
  s.setPixels s.seqLen (fun i => s.pixel (P.getD i 0))

/-- The scatter `PIX[P[i]] <- old PIX[i]` for the listed `i`, in the order of the list
(42_shuffler.md R92). -/
def scatterPixels (old : State) (P : List Nat) : List Nat → State → State
  | [], t => t
  | i :: is, t => scatterPixels old P is (t.setPixel (P.getD i 0) (old.pixel i))

/-- The scatter of the whole sequence (42_shuffler.md R92). -/
def unpermutePixels (s : State) : State :=
  scatterPixels s (genPerm s.key s.seqLen) (List.range s.seqLen) s

/-- `PERMUTE` (42_shuffler.md R91). -/
def execPermute (s : State) : Result :=
  .next (unlessLatched s fun s => checkLen 0 (encode .permute) s permutePixels)

/-- `UNPERMUTE` (42_shuffler.md R92). -/
def execUnpermute (s : State) : Result :=
  .next (unlessLatched s fun s => checkLen 0 (encode .unpermute) s unpermutePixels)

end Sys2Proof.Machine
end

