-- ==== Sys2Proof/Machine/System.lean ====
section
/-! DEFINITION. The system commands NOP and CLRF. -/

namespace Sys2Proof.Machine

/-- `NOP` (44_system.md R110): nothing, with or without a latched fault. -/
def execNop (s : State) : Result := .next (unlessLatched s id)

/-- `CLRF` (44_system.md R111): the one command that runs while a fault is latched. -/
def execClrf (s : State) : Result := .next (clearFault s)

end Sys2Proof.Machine
end

