-- ==== Sys2Proof/Machine/Transform.lean ====
section
/-! DEFINITION. The Transform sequencer: the commands GENKEY, ENCRYPT and DECRYPT. -/

namespace Sys2Proof.Machine

/-- The stages of `ENCRYPT` after its check, in order: draw, mask, permute, embed (43_transform.md R101). -/
def encryptPixels (s : State) : State := embedKey (permutePixels (maskPixels (drawKey s)))

/-- The stages of `DECRYPT` after its check, in order: extract, unpermute, unmask (43_transform.md R103;
90_conflicts.md C2). -/
def decryptPixels (s : State) : State := maskPixels (unpermutePixels (extractKey s))

/-- `GENKEY` (43_transform.md R100): it does not look at `NPIX`. -/
def execGenkey (s : State) : Result := .next (unlessLatched s drawKey)

/-- `ENCRYPT` (43_transform.md R101): the check comes before the draw. -/
def execEncrypt (s : State) : Result :=
  .next (unlessLatched s fun s => checkLen slotCount (encode .encrypt) s encryptPixels)

/-- `DECRYPT` (43_transform.md R103, R106): any extracted key is accepted. -/
def execDecrypt (s : State) : Result :=
  .next (unlessLatched s fun s => checkLen slotCount (encode .decrypt) s decryptPixels)

end Sys2Proof.Machine
end

