-- ==== Sys2Proof/Machine/Dispatch.lean ====
section
/-! DEFINITION. What each command does: one arm per row of the opcode map (30_encoding.md R51, R52). -/

namespace Sys2Proof.Machine

def exec (i : Instr) (s : State) : Host.Outcome State Fault Refusal :=
  match i with
  | .nop => Sys2Proof.Machine.execNop s
  | .mask => Sys2Proof.Machine.execMask s
  | .permute => Sys2Proof.Machine.execPermute s
  | .unpermute => Sys2Proof.Machine.execUnpermute s
  | .embed => Sys2Proof.Machine.execEmbed s
  | .extract => Sys2Proof.Machine.execExtract s
  | .genkey => Sys2Proof.Machine.execGenkey s
  | .encrypt => Sys2Proof.Machine.execEncrypt s
  | .decrypt => Sys2Proof.Machine.execDecrypt s
  | .clrf => Sys2Proof.Machine.execClrf s

end Sys2Proof.Machine
end

