-- ==== Sys2Proof/Machine/Port.lean ====
section
/-! DEFINITION. The host port: the address map, what a read returns, what a write does (a write to `CMD`
executes its command whole), the response, and reset. -/

namespace Sys2Proof.Machine

/-- The byte offset of a port address: a multiple of 4 below 2^27 (20_memory.md R30). -/
def byteOffset (a : PortAddr) : Nat := 4 * a.toNat

/-- The port address of a byte offset that is a multiple of 4. -/
def portAddr (off : Nat) : PortAddr := BitVec.ofNat 25 (off / 4)

/-- `PIXBASE` (20_memory.md R31). -/
def pixBase : Nat := 0x0400_0000

/-- The byte offset of a register (10_state.md section 4; 20_memory.md R31; 30_encoding.md R57). -/
def regOffset : Reg → Nat
  | .cmd => 0x00
  | .status => 0x04
  | .key => 0x08
  | .npix => 0x0C
  | .cap => 0x10
  | .fcmd => 0x14

/-- What an offset of the host offset space is (20_memory.md R31). -/
inductive Target where
  | reg (r : Reg)
  | pix (i : Nat)
  | unmapped
deriving DecidableEq, Repr

/-- The address map for a capacity of `n` pixels (20_memory.md R31). -/
def target (n : Nat) (a : PortAddr) : Target :=
  let off := byteOffset a
  if off = regOffset .cmd then .reg .cmd
  else if off = regOffset .status then .reg .status
  else if off = regOffset .key then .reg .key
  else if off = regOffset .npix then .reg .npix
  else if off = regOffset .cap then .reg .cap
  else if off = regOffset .fcmd then .reg .fcmd
  else if pixBase ≤ off ∧ off < pixBase + 4 * n then .pix ((off - pixBase) / 4)
  else .unmapped

/-- `Dispatch(w)`, what a write of `w` to `CMD` does (30_encoding.md R51). While a fault is latched an
illegal word is ignored like any other (R54); `exec` looks at the latched fault itself (log 9). -/
def dispatch (w : Word) (s : State) : Result :=
  match decode w with
  | .ok i => exec i s
  | .error _ => .next (unlessLatched s (raise .illegalCommand w))

/-- `MemRead(off, 4)`, the word a read returns; `none` where the response is `ERR` (20_memory.md R33). -/
def memRead (a : PortAddr) (s : State) : Option Word :=
  match target s.nmax a with
  | .reg .cmd => some 0
  | .reg .status => some s.status
  | .reg .key => some (s.key.setWidth 32)
  | .reg .npix => some s.npix
  | .reg .cap => some s.cap
  | .reg .fcmd => some s.fcmd
  | .pix i => some ((s.pixel i).setWidth 32)
  | .unmapped => none

/-- `MemWrite(off, 4, v)`, the effect of a write (20_memory.md R34). -/
def memWrite (a : PortAddr) (v : Word) (s : State) : Result :=
  match target s.nmax a with
  | .reg .cmd => dispatch v s
  | .reg .status => .next s
  | .reg .key => .next { s with key := v.setWidth 8 }
  | .reg .npix => .next { s with npix := v }
  | .reg .cap => .next s
  | .reg .fcmd => .next s
  | .pix i => .next (s.setPixel i (v.setWidth 24))
  | .unmapped => .next s

/-- The response of a write: `ERR` for an unmapped offset, `OK` for every other, also when a command
faults or is ignored (20_memory.md R32). -/
def writeResponse (a : PortAddr) (s : State) : Response :=
  if target s.nmax a = .unmapped then .err else .okWrite

/-- The response of a read (20_memory.md R32, R33). -/
def readResponse (a : PortAddr) (s : State) : Response :=
  match memRead a s with
  | some v => .okRead v
  | none => .err

/-- Ends a transaction with its response (20_memory.md R30). -/
def respond (r : Response) : Result → Result
  | .next s => .next { s with resp := some r }
  | .fault f => .fault f
  | .refused f => .refused f

/-- One port transaction, whole (20_memory.md R30, R40). A read changes nothing but the response (R33). -/
def transact (t : PortTx) (s : State) : Result :=
  match t with
  | .read a => respond (readResponse a s) (.next s)
  | .write a v => respond (writeResponse a s) (memWrite a v s)

/-- Reset (70_reset_and_hazards.md R140; 10_state.md R27): every register at its reset value, the pixel
contents unspecified anew; `CAP` is a constant, the host's further transactions and the key source are
not the engine's to reset. -/
def resetEngine (s : State) : State :=
  { State.reset with
    cap := s.cap, epoch := s.epoch + 1, draws := s.draws, pending := s.pending }

/-- One event from outside (00_scope.md R5). A transaction that reset cuts is abandoned: it has no
effect beyond reset's and is never acknowledged (70_reset_and_hazards.md R140; log 10). -/
def hostEvent (e : HostEvent) (s : State) : Result :=
  match e with
  | .tx t => transact t s
  | .reset _ => .next (resetEngine s)

/-- A write of `w` to `CMD`. -/
def commandWrite (w : Word) : HostEvent := .tx (.write (portAddr (regOffset .cmd)) w)

/-- The next event of the outside world, performed; with none left the engine is idle and nothing changes
(00_scope.md R5, R6; 60_exceptions.md R128; log 2). -/
def performNext (s : State) : Result :=
  match s.pending with
  | [] => .next s
  | e :: rest => hostEvent e { s with pending := rest }

/-- `s` with a write of the table's word to `CMD` as the host's next transaction. -/
def placeCommand (s : State) (nbits w : Nat) : State :=
  { s with pending := commandWrite (BitVec.ofNat 32 (w % 2 ^ nbits)) :: s.pending }

end Sys2Proof.Machine
end

