-- ==== Sys2Proof/Machine/Step.lean ====
section
/-! DEFINITION. One step of the machine: one event of the outside world, whole (00_scope.md R5). -/

namespace Sys2Proof.Machine

/-- One step: the host's next transaction, or reset; a write to `CMD` runs its command whole
(00_scope.md R5; 20_memory.md R40). -/
def step (s : State) : Host.Outcome State Fault Refusal := performNext s

/-- `s` with the command word placed where the engine takes its next command from: as the host's next
transaction, a write to `CMD` (30_encoding.md R50; log 1). -/
def State.withFetchWord (s : State) (nbits w : Nat) : State := placeCommand s nbits w

end Sys2Proof.Machine
end

