-- ==== Sys2Proof/Machine/HostProgram.lean ====
section
/-! DEFINITION. The host-program notation and the pseudo-instructions, as port transactions. -/

namespace Sys2Proof.Machine

/-- The port transaction of one line (30_encoding.md R57). -/
def lineTx : HostLine → PortTx
  | .wr r v => .write (portAddr (regOffset r)) v
  | .rd r => .read (portAddr (regOffset r))
  | .wrpix i v => .write (portAddr (pixBase + 4 * i)) v
  | .rdpix i => .read (portAddr (pixBase + 4 * i))
  | .command i => .write (portAddr (regOffset .cmd)) (encode i)

/-- `LOAD i0, [v0, v1, ...]`: one `WRPIX` a word, at rising indices (30_encoding.md R58). -/
def loadLines : Nat → List Word → List HostLine
  | _, [] => []
  | i, v :: vs => .wrpix i v :: loadLines (i + 1) vs

/-- The fixed expansion of a pseudo-instruction (30_encoding.md R58). -/
def expandPseudo : Pseudo → List HostLine
  | .ldkey k => [.wr .key k]
  | .setn n => [.wr .npix n]
  | .load i0 vs => loadLines i0 vs
  | .encryptk k => [.wr .key k, .command .mask, .command .permute, .command .embed]
  | .decrypts => [.command .extract, .command .unpermute, .command .mask]

/-- The transactions of a host program, in the order the host issues them (20_memory.md R40). -/
def programEvents (ls : List HostLine) : List HostEvent := ls.map (fun l => .tx (lineTx l))

/-- `s` with a host program as what the outside world does next (00_scope.md R6). -/
def State.withProgram (s : State) (ls : List HostLine) : State :=
  { s with pending := programEvents ls ++ s.pending }

end Sys2Proof.Machine
end

