-- ==== Sys2Proof/Safety.lean ====
section
/-! DEFINITION. The terms in which claims speak of runs: the machine's invariant, sequences of commands,
what two states share, and a run that ended well. -/

namespace Sys2Proof.Machine

/-- The parameter `NMAX` is in its range (00_scope.md R2). -/
def State.capacityLegal (s : State) : Prop :=
  1 ≤ s.nmax ∧ s.nmax ≤ Config.maxCapacity

/-- `STATUS.FAULT = 1` exactly when `STATUS.ERRCODE != 0`, and `FCMD` is 0 when no fault is latched
(10_state.md R16). -/
def State.faultRecordLegal (s : State) : Prop :=
  (s.fault = true ↔ s.errcode ≠ 0) ∧ (s.fault = false → s.fcmd = 0)

/-- The four values of the `STATUS` word (10_state.md R15). -/
def State.statusLegal (s : State) : Prop :=
  s.status = 0x0000_0000 ∨ s.status = 0x0000_0101 ∨ s.status = 0x0000_0201 ∨ s.status = 0x0000_0301

/-- `FCMD` names a command that can have raised the latched cause (60_exceptions.md R120). -/
def State.fcmdMatchesCause (s : State) : Prop :=
  (s.errcode = Cause.insufficientPixels.code →
    s.fcmd ∈ [encode .embed, encode .extract, encode .encrypt, encode .decrypt]) ∧
  (s.errcode = Cause.badLength.code →
    s.fcmd ∈ [encode .mask, encode .permute, encode .unpermute, encode .embed, encode .extract,
      encode .encrypt, encode .decrypt]) ∧
  (s.errcode = Cause.illegalCommand.code → ∀ i : Instr, s.fcmd ≠ encode i)

/-- Only channels of pixels that exist are listed, and the memory has its canonical form (10_state.md R20;
log 7). -/
def State.memoryLegal (s : State) : Prop :=
  s.mem.wf ∧ ∀ c ∈ s.mem, c.1 < 3 * s.nmax

/-- The machine's invariant. -/
structure State.Inv (s : State) : Prop where
  capacity : s.capacityLegal
  record : s.faultRecordLegal
  status : s.statusLegal
  cause : s.fcmdMatchesCause
  memory : s.memoryLegal

/-- The commands of a list, one after the other, each whole. -/
def runCommands : List Instr → State → Result
  | [], s => .next s
  | i :: is, s =>
    match exec i s with
    | .next t => runCommands is t
    | .fault f => .fault f
    | .refused r => .refused r

/-- All of the state but the pixel memory is the same. -/
structure SameButPixels (s t : State) : Prop where
  key : t.key = s.key
  npix : t.npix = s.npix
  fault : t.fault = s.fault
  errcode : t.errcode = s.errcode
  fcmd : t.fcmd = s.fcmd
  cap : t.cap = s.cap
  epoch : t.epoch = s.epoch
  draws : t.draws = s.draws
  pending : t.pending = s.pending
  resp : t.resp = s.resp

/-- All of the state but the pixel memory, `KEY` and the count of draws is the same. -/
structure SameButPixelsAndKey (s t : State) : Prop where
  npix : t.npix = s.npix
  fault : t.fault = s.fault
  errcode : t.errcode = s.errcode
  fcmd : t.fcmd = s.fcmd
  cap : t.cap = s.cap
  epoch : t.epoch = s.epoch
  pending : t.pending = s.pending
  resp : t.resp = s.resp

/-- Every channel byte outside the pixel sequence reads the same (20_memory.md R38). -/
def sameBeyond (n : Nat) (s t : State) : Prop := ∀ a, 3 * n ≤ a → t.byteAt a = s.byteAt a

/-- Every channel byte reads the same. -/
def sameBytes (s t : State) : Prop := ∀ a, t.byteAt a = s.byteAt a

/-- A pixel with bit 0 of its blue channel replaced, all other bits kept (40_keycodec.md R70). -/
def withBlueBit0 (p : Pixel) (bit : Bool) : Pixel :=
  (p &&& 0xFF_FFFE) ||| (BitVec.ofBool bit).setWidth 24

/-- The permutation that `PERMUTE` and `UNPERMUTE` use in a state (42_shuffler.md R88, R90), at an index. -/
def State.permAt (s : State) (i : Nat) : Nat := (genPerm s.key s.seqLen).getD i 0

/-- Two states agree on all that a command may depend on or change: `KEY`, `NPIX`, the fault record, `CAP`,
the draws, and the channel bytes of the first `n` pixels (10_state.md R21, R22; 20_memory.md R38). -/
structure AgreeBelow (n : Nat) (s s' : State) : Prop where
  key : s'.key = s.key
  npix : s'.npix = s.npix
  fault : s'.fault = s.fault
  errcode : s'.errcode = s.errcode
  fcmd : s'.fcmd = s.fcmd
  cap : s'.cap = s.cap
  draws : s'.draws = s.draws
  bytes : ∀ a, a < 3 * n → s'.byteAt a = s.byteAt a

/-- After a round trip with key `k`: the first `n` pixels are back, but for the blue LSB of the 8 pixels that
the permutation brought into the slots, which is `k[7 - i] XOR k[0]` (43_transform.md R105). -/
structure RestoredButSlots (n : Nat) (k : Byte) (s v : State) : Prop where
  key : v.key = k
  others : ∀ q, q < n → (∀ i, i < 8 → (genPerm k n).getD i 0 ≠ q) → v.pixel q = s.pixel q
  slots : ∀ i, i < 8 → v.pixel ((genPerm k n).getD i 0) =
    withBlueBit0 (s.pixel ((genPerm k n).getD i 0)) (k.getLsbD (7 - i) ^^ k.getLsbD 0)

/-- A datapath command that needs `min` pixels passes its check and is not ignored
(60_exceptions.md R122, R126). -/
def State.ready (s : State) (min : Nat) : Prop :=
  s.fault = false ∧ s.seqLen ≤ s.nmax ∧ min ≤ s.seqLen

/-- A run that ended with every command executed (00_scope.md R6; 70_reset_and_hazards.md R146): the
host's transactions are done and no fault is latched. -/
def State.endedWell (s : State) : Prop := s.pending = [] ∧ s.fault = false

end Sys2Proof.Machine
end

