-- ==== Sys2Proof/Certificates/Slice0/Obligations.lean ====
section
/-! DEFINITION. The statements for the provers, from the numbered rules of spec/. -/

open Sys2Proof Sys2Proof.Machine

/-! ### Encoding and dispatch (30_encoding.md) -/

/-- R52: the ten command words, matched on all 32 bits. -/
def Obligations.CommandWordsMatchOnAllBits : Prop :=
  encode .nop = 0x0000_0000 ∧ encode .mask = 0x0000_0001 ∧ encode .permute = 0x0000_0002 ∧
  encode .unpermute = 0x0000_0003 ∧ encode .embed = 0x0000_0004 ∧ encode .extract = 0x0000_0005 ∧
  encode .genkey = 0x0000_0006 ∧ encode .encrypt = 0x0000_0007 ∧ encode .decrypt = 0x0000_0008 ∧
  encode .clrf = 0x0000_0009 ∧
  ∀ (w : Word) (i : Instr), decode w = .ok i ↔ w = encode i

/-- R50, R52: decoding the word of a well-formed command gives the command back. -/
def Obligations.DecodeInvertsEncode : Prop :=
  ∀ i : Instr, i.wf = true → decode (encode i) = .ok i

/-- 30_encoding.md section 3: a few words, written out from the encoding table, decode to their commands. -/
def Obligations.WrittenWordsDecode : Prop :=
  decode 0b00000000_00000000_00000000_00000000 = .ok .nop ∧
  decode 0b00000000_00000000_00000000_00000001 = .ok .mask ∧
  decode 0b00000000_00000000_00000000_00000011 = .ok .unpermute ∧
  decode 0b00000000_00000000_00000000_00000101 = .ok .extract ∧
  decode 0b00000000_00000000_00000000_00001000 = .ok .decrypt

/-- R54: the `2^32 - 10` illegal words; each raises `IllegalCommand` with `FCMD <- w` and nothing else when
no fault is latched, and is ignored when one is. -/
def Obligations.IllegalWordsRaiseOrAreIgnored : Prop :=
  (∀ w : Word, (w.extractLsb' 8 24 ≠ 0 ∨ 0x0A ≤ (w.extractLsb' 0 8).toNat) ↔ ∀ i, decode w ≠ .ok i) ∧
  Nat.card { w : Word // w.extractLsb' 8 24 ≠ 0 ∨ 0x0A ≤ (w.extractLsb' 0 8).toNat } = 2 ^ 32 - 10 ∧
  ∀ (w : Word) (s : State), w.extractLsb' 8 24 ≠ 0 ∨ 0x0A ≤ (w.extractLsb' 0 8).toNat →
    (s.fault = false → dispatch w s = .next { s with fault := true, errcode := 3, fcmd := w }) ∧
    (s.fault = true → dispatch w s = .next s)

/-- R51: `Dispatch(w)` case by case, in the order of the rule; the write to `CMD` that carries `w` is answered
`OK` in every case. -/
def Obligations.DispatchFollowsTheRule : Prop :=
  (∀ (s : State) (a : PortAddr) (w : Word) (rest : List HostEvent),
    s.pending = .tx (.write a w) :: rest → byteOffset a = 0x00 →
    ∃ t, dispatch w { s with pending := rest } = .next t ∧
      step s = .next { t with resp := some .okWrite }) ∧
  ∀ (w : Word) (s : State), dispatch w s =
    if s.fault = true then
      if w = 0x0000_0009 then exec .clrf s else .next s
    else if w.extractLsb' 8 24 ≠ 0 ∨ 0x09 < (w.extractLsb' 0 8).toNat then
      .next { s with fault := true, errcode := 3, fcmd := w }
    else match (w.extractLsb' 0 8).toNat with
      | 0x00 => exec .nop s
      | 0x01 => exec .mask s
      | 0x02 => exec .permute s
      | 0x03 => exec .unpermute s
      | 0x04 => exec .embed s
      | 0x05 => exec .extract s
      | 0x06 => exec .genkey s
      | 0x07 => exec .encrypt s
      | 0x08 => exec .decrypt s
      | _ => exec .clrf s

/-! ### The step and the host port (10_state.md, 20_memory.md) -/

/-- R14, R40: a write of `w` to `CMD` (offset 0x00) runs the command `w` decodes to before it is acknowledged;
a read of `CMD` returns 0 and has no effect. The step removes the transaction and adds the response (THE MODEL'S CHOICE, logs 1
and 8: the host's transactions stand in `pending`, the response in `resp`). -/
def Obligations.StepRunsTheDecodedCommand : Prop :=
  (∀ (s : State) (a : PortAddr) (w : Word) (rest : List HostEvent) (i : Instr),
    s.pending = .tx (.write a w) :: rest → byteOffset a = 0x00 → decode w = .ok i → i.wf = true →
    ∃ t, exec i { s with pending := rest } = .next t ∧
      step s = .next { t with resp := some .okWrite }) ∧
  (∀ (s : State) (a : PortAddr) (rest : List HostEvent),
    s.pending = .tx (.read a) :: rest → byteOffset a = 0x00 →
    step s = .next { s with pending := rest, resp := some (.okRead 0) })

/-- THE MODEL'S CHOICE (log 2): with no transaction left the engine is idle and a step changes nothing. -/
def Obligations.IdleEngineStaysAsItIs : Prop :=
  ∀ s : State, s.pending = [] → step s = .next s

/-- R151: no step stops; a write to `CMD` is acknowledged, whatever its word. That a state with nothing pending
has a step at all is THE MODEL'S CHOICE (log 2): the spec gives no step for waiting. -/
def Obligations.EveryStepAnswersAndEveryCommandIsAcknowledged : Prop :=
  (∀ s : State, ∃ t, step s = .next t) ∧
  ∀ (s : State) (a : PortAddr) (w : Word) (rest : List HostEvent),
    s.pending = .tx (.write a w) :: rest → byteOffset a = 0x00 →
    ∃ t, step s = .next t ∧ t.resp = some .okWrite ∧ t.pending = rest

/-- R33: the word a host read returns, offset by offset; no read changes any state. (The transaction leaves
the queue and its response is recorded.) -/
def Obligations.HostReadsReturnTheMappedWord : Prop :=
  ∀ (s : State) (a : PortAddr) (rest : List HostEvent), s.pending = .tx (.read a) :: rest →
    ∃ r, step s = .next { s with pending := rest, resp := some r } ∧
      (byteOffset a = 0x00 → r = .okRead 0) ∧
      (byteOffset a = 0x04 → r = .okRead (0#20 ++ s.errcode ++ 0#7 ++ BitVec.ofBool s.fault)) ∧
      (byteOffset a = 0x08 → r = .okRead (s.key.setWidth 32)) ∧
      (byteOffset a = 0x0C → r = .okRead s.npix) ∧
      (byteOffset a = 0x10 → r = .okRead (BitVec.ofNat 32 s.nmax)) ∧
      (byteOffset a = 0x14 → r = .okRead s.fcmd) ∧
      (∀ i, i < s.nmax → byteOffset a = 0x0400_0000 + 4 * i →
        r = .okRead (0#8 ++ s.byteAt (chanAddr i .red) ++ s.byteAt (chanAddr i .green) ++
          s.byteAt (chanAddr i .blue))) ∧
      (byteOffset a ∉ [0x00, 0x04, 0x08, 0x0C, 0x10, 0x14] →
        (∀ i, i < s.nmax → byteOffset a ≠ 0x0400_0000 + 4 * i) → r = .err)

/-- R34: the effect of a host write, offset by offset, whether or not a fault is latched. -/
def Obligations.HostWritesHaveTheMappedEffect : Prop :=
  ∀ (s : State) (a : PortAddr) (v : Word) (rest : List HostEvent), s.pending = .tx (.write a v) :: rest →
    (byteOffset a = 0x00 → ∃ t, dispatch v { s with pending := rest } = .next t ∧
      step s = .next { t with resp := some .okWrite }) ∧
    (byteOffset a = 0x04 → step s = .next { s with pending := rest, resp := some .okWrite }) ∧
    (byteOffset a = 0x08 →
      step s = .next { s with pending := rest, resp := some .okWrite, key := v.extractLsb' 0 8 }) ∧
    (byteOffset a = 0x0C → step s = .next { s with pending := rest, resp := some .okWrite, npix := v }) ∧
    (byteOffset a = 0x10 → step s = .next { s with pending := rest, resp := some .okWrite }) ∧
    (byteOffset a = 0x14 → step s = .next { s with pending := rest, resp := some .okWrite }) ∧
    (∀ i, i < s.nmax → byteOffset a = 0x0400_0000 + 4 * i →
      ∃ t, step s = .next t ∧
        t.byteAt (chanAddr i .red) = v.extractLsb' 16 8 ∧
        t.byteAt (chanAddr i .green) = v.extractLsb' 8 8 ∧
        t.byteAt (chanAddr i .blue) = v.extractLsb' 0 8 ∧
        (∀ c, (∀ ch : Channel, c ≠ chanAddr i ch) → t.byteAt c = s.byteAt c) ∧
        SameButPixels { s with pending := rest, resp := some .okWrite } t) ∧
    (byteOffset a ∉ [0x00, 0x04, 0x08, 0x0C, 0x10, 0x14] →
      (∀ i, i < s.nmax → byteOffset a ≠ 0x0400_0000 + 4 * i) →
      step s = .next { s with pending := rest, resp := some .err })

/-- R37: a host write to any offset but `CMD` twice is the write once; a write to `CMD` is not idempotent. -/
def Obligations.HostWritesButCmdAreIdempotent : Prop :=
  (∀ (s : State) (a : PortAddr) (v : Word), byteOffset a ≠ 0x00 →
    ∃ t, memWrite a v s = .next t ∧ memWrite a v t = .next t) ∧
  ∃ (s : State) (a : PortAddr) (w : Word) (t u : State), byteOffset a = 0x00 ∧
    memWrite a w s = .next t ∧ memWrite a w t = .next u ∧ ¬ sameBytes t u

/-- R18: `CAP` reads as `NMAX`; a write is acknowledged and ignored; it never changes, across reset or
otherwise. -/
def Obligations.CapIsAConstant : Prop :=
  (∀ s t : State, step s = .next t → t.cap = s.cap) ∧
  (∀ (s : State) (a : PortAddr) (rest : List HostEvent), byteOffset a = 0x10 →
    s.pending = .tx (.read a) :: rest →
    step s = .next { s with pending := rest, resp := some (.okRead (BitVec.ofNat 32 s.nmax)) }) ∧
  ∀ (s : State) (a : PortAddr) (v : Word) (rest : List HostEvent), byteOffset a = 0x10 →
    s.pending = .tx (.write a v) :: rest →
    step s = .next { s with pending := rest, resp := some .okWrite }

/-- 20_memory.md R37, 10_state.md R20: a channel reads as it was last written, and a write leaves every
other channel alone. -/
def Obligations.ChannelsReadBackAsWritten : Prop :=
  ∀ (s : State) (a a' : Nat) (b : Byte),
    (s.setByte a b).byteAt a = b ∧ (a' ≠ a → (s.setByte a b).byteAt a' = s.byteAt a')

/-! ### Reset and the invariants (10_state.md, 70_reset_and_hazards.md) -/

/-- R27: the registers right after reset, and no fault latched. The value of `CAP` is the reference
configuration (THE MODEL'S CHOICE, log 3); the pixels are free values (log 4). -/
def Obligations.ResetStateHoldsTheResetValues : Prop :=
  State.reset.key = 0x00 ∧ State.reset.npix = 0 ∧ State.reset.status = 0x0000_0000 ∧
  State.reset.fcmd = 0 ∧ State.reset.cap = 0x0001_0000 ∧ State.reset.mem = [] ∧
  State.reset.pending = []

/-- R140: a reset, between transactions or in the middle of one, leaves the registers at their reset values
and `CAP` as it is; nothing is acknowledged. That the pixels become free values of a new reset number, that
the draws go on and that no response stands is THE MODEL'S CHOICE (logs 4, 5, 8). -/
def Obligations.ResetEventLeavesTheResetRegisters : Prop :=
  ∀ (s : State) (c : Option PortTx) (rest : List HostEvent), s.pending = .reset c :: rest →
    ∃ t, step s = .next t ∧ t.key = 0x00 ∧ t.npix = 0 ∧ t.status = 0x0000_0000 ∧ t.fcmd = 0 ∧
      t.cap = s.cap ∧ t.pending = rest ∧ t.resp = none ∧ t.draws = s.draws ∧
      t.epoch = s.epoch + 1 ∧ ∀ a, t.byteAt a = Config.freeByte (s.epoch + 1) a

/-- The invariant holds right after reset. -/
def Obligations.ResetStateMeetsTheInvariant : Prop := State.reset.Inv

/-- R15, R16, R2, R20, R120: every step keeps the invariant: `NMAX` in its range, `STATUS` one of its four
words, `FAULT` set exactly when there is a cause, `FCMD` 0 when none is latched and else a command that can
have raised the cause, the pixel memory canonical and within `PIX[0 .. NMAX)`. -/
def Obligations.EveryStepKeepsTheInvariant : Prop :=
  ∀ s t : State, s.Inv → step s = .next t → t.Inv

/-- R16: `FAULT = 1` iff `ERRCODE != 0`, and `FAULT = 0` implies `FCMD = 0`: after reset and after every
transaction. -/
def Obligations.FaultRecordStaysConsistent : Prop :=
  ((State.reset.fault = true ↔ State.reset.errcode ≠ 0) ∧
    (State.reset.fault = false → State.reset.fcmd = 0)) ∧
  ∀ s t : State, ((s.fault = true ↔ s.errcode ≠ 0) ∧ (s.fault = false → s.fcmd = 0)) →
    step s = .next t → ((t.fault = true ↔ t.errcode ≠ 0) ∧ (t.fault = false → t.fcmd = 0))

/-- R19: only a command or reset changes the fault record: a change needs the word of `CLRF`, or a command
that found no fault latched and latched one. -/
def Obligations.OnlyCommandsAndResetChangeTheFaultRecord : Prop :=
  ∀ s t : State, step s = .next t →
    (t.fault ≠ s.fault ∨ t.errcode ≠ s.errcode ∨ t.fcmd ≠ s.fcmd) →
    (∃ c rest, s.pending = .reset c :: rest) ∨
    (∃ a w rest, s.pending = .tx (.write a w) :: rest ∧ byteOffset a = 0x00 ∧
      (w = 0x0000_0009 ∨ (s.fault = false ∧ t.fault = true ∧ t.fcmd = w)))

/-! ### Faults (60_exceptions.md) -/

/-- R122: `CheckLen(min, w)`, in the order of the rule; with `min = 0` the second test never fires; with
`NMAX < 8` no length passes `CheckLen(8, w)`. -/
def Obligations.LengthCheckFollowsTheRule : Prop :=
  ∀ (min : Nat) (w : Word) (s : State) (body : State → State),
    (s.nmax < s.npix.toNat →
      checkLen min w s body = { s with fault := true, errcode := 2, fcmd := w }) ∧
    (s.npix.toNat ≤ s.nmax → s.npix.toNat < min →
      checkLen min w s body = { s with fault := true, errcode := 1, fcmd := w }) ∧
    (s.npix.toNat ≤ s.nmax → min ≤ s.npix.toNat → checkLen min w s body = body s) ∧
    (s.npix.toNat ≤ s.nmax → checkLen 0 w s body = body s) ∧
    (s.nmax < 8 → (checkLen 8 w s body).fault = true)

/-- R120, R121, R127: which command raises which fault, and that a faulting command changes `STATUS` and
`FCMD` only (no register, no pixel, no draw). -/
def Obligations.CommandsRaiseExactlyTheListedFaults : Prop :=
  ∀ (i : Instr) (s : State), s.fault = false →
    (i ∈ [Instr.mask, .permute, .unpermute, .embed, .extract, .encrypt, .decrypt] →
      s.nmax < s.npix.toNat →
      exec i s = .next { s with fault := true, errcode := 2, fcmd := encode i }) ∧
    (i ∈ [Instr.embed, .extract, .encrypt, .decrypt] → s.npix.toNat ≤ s.nmax → s.npix.toNat < 8 →
      exec i s = .next { s with fault := true, errcode := 1, fcmd := encode i }) ∧
    (i ∈ [Instr.embed, .extract, .encrypt, .decrypt] → s.npix.toNat ≤ s.nmax → 8 ≤ s.npix.toNat →
      ∃ t, exec i s = .next t ∧ t.fault = false) ∧
    (i ∈ [Instr.mask, .permute, .unpermute] → s.npix.toNat ≤ s.nmax →
      ∃ t, exec i s = .next t ∧ t.fault = false) ∧
    (i ∈ [Instr.nop, .genkey, .clrf] → ∃ t, exec i s = .next t ∧ t.fault = false)

/-- R126: while a fault is latched every word written to `CMD` but `CLRF` is ignored and acknowledged; reads,
and host writes to the other offsets, work as usual. -/
def Obligations.LatchedFaultIgnoresCommands : Prop :=
  (∀ (s : State) (a : PortAddr) (w : Word) (rest : List HostEvent), s.fault = true →
    w ≠ 0x0000_0009 → s.pending = .tx (.write a w) :: rest → byteOffset a = 0x00 →
    step s = .next { s with pending := rest, resp := some .okWrite }) ∧
  (∀ (s : State) (a : PortAddr) (v : Word), byteOffset a ≠ 0x00 →
    ∃ t, memWrite a v { s with fault := false } = .next t ∧
      memWrite a v { s with fault := true } = .next { t with fault := true }) ∧
  (∀ (s : State) (a : PortAddr), byteOffset a ≠ 0x04 →
    memRead a { s with fault := true } = memRead a { s with fault := false })

/-- R146: if no fault is latched after a sequence of commands without `CLRF`, none was latched before any of
them, so each was executed; and once a fault is latched such a sequence changes nothing. -/
def Obligations.OneReadOfStatusCoversASequence : Prop :=
  (∀ (l : List Instr) (s : State), Instr.clrf ∉ l → s.fault = true → runCommands l s = .next s) ∧
  ∀ (l m : List Instr) (s t : State), Instr.clrf ∉ l ++ m → runCommands (l ++ m) s = .next t →
    t.fault = false → ∃ u, runCommands l s = .next u ∧ u.fault = false ∧ runCommands m u = .next t

/-! ### System commands (44_system.md) -/

/-- R110: `NOP` changes nothing, in any state. -/
def Obligations.NopChangesNothing : Prop :=
  encode .nop = 0x0000_0000 ∧ ∀ s : State, exec .nop s = .next s

/-- R111: `CLRF` clears the latched fault and leaves all else alone; with none latched it changes nothing;
while one is latched a word with `OP = 0x09` and a reserved bit set is ignored. -/
def Obligations.ClrfReturnsFromAFault : Prop :=
  encode .clrf = 0x0000_0009 ∧
  (∀ s : State, exec .clrf s = .next { s with fault := false, errcode := 0, fcmd := 0 }) ∧
  (∀ s : State, s.faultRecordLegal → s.fault = false → exec .clrf s = .next s) ∧
  ∀ (s : State) (w : Word), s.fault = true → w.extractLsb' 0 8 = 0x09 → w.extractLsb' 8 24 ≠ 0 →
    dispatch w s = .next s

/-! ### Masker (41_masker.md) -/

/-- R80: `MASK`, its result, its one fault and its frame. -/
def Obligations.MaskXorsEveryChannelOfTheSequence : Prop :=
  encode .mask = 0x0000_0001 ∧
  ∀ s : State, s.fault = false →
    (s.npix.toNat ≤ s.nmax → ∃ t, exec .mask s = .next t ∧
      (∀ i, i < s.npix.toNat → ∀ c : Channel,
        t.byteAt (chanAddr i c) = s.byteAt (chanAddr i c) ^^^ s.key) ∧
      (∀ i, i < s.npix.toNat → t.pixel i = s.pixel i ^^^ (s.key ++ s.key ++ s.key)) ∧
      (∀ a, 3 * s.npix.toNat ≤ a → t.byteAt a = s.byteAt a) ∧ SameButPixels s t) ∧
    (s.nmax < s.npix.toNat →
      exec .mask s = .next { s with fault := true, errcode := 2, fcmd := 0x0000_0001 })

/-- R81: `MASK` ; `MASK` restores every pixel. -/
def Obligations.MaskTwiceRestoresEveryPixel : Prop :=
  ∀ s : State, s.fault = false → s.npix.toNat ≤ s.nmax →
    ∃ t, runCommands [.mask, .mask] s = .next t ∧ sameBytes s t ∧ SameButPixels s t

/-- R82: `MASK` commutes with `PERMUTE` and with `UNPERMUTE`, and not with `EMBED`: it flips the slot bits
where `KEY[0] = 1`. -/
def Obligations.MaskCommutesWithTheShuffleOnly : Prop :=
  (∀ (s : State) (i : Instr), i = .permute ∨ i = .unpermute → s.ready 0 →
    ∃ t u, runCommands [.mask, i] s = .next t ∧ runCommands [i, .mask] s = .next u ∧ sameBytes t u ∧
      SameButPixels t u) ∧
  ∀ s : State, s.ready 8 → s.key.getLsbD 0 = true →
    ∃ t u, runCommands [.mask, .embed] s = .next t ∧ runCommands [.embed, .mask] s = .next u ∧
      ∀ j, j < 8 → t.slotBit j = s.key.getLsbD (7 - j) ∧ u.slotBit j = !s.key.getLsbD (7 - j)

/-! ### Shuffler (42_shuffler.md) -/

/-- R85: the seed, its range, that it is never 0 and differs for different keys, and the examples. -/
def Obligations.SeedsAreNonzeroAndDistinct : Prop :=
  (∀ k : Byte, genSeed k = 0x9E37_79B9 ^^^ k.setWidth 32 ∧ 0x9E37_7900 ≤ (genSeed k).toNat ∧
    (genSeed k).toNat ≤ 0x9E37_79FF ∧ genSeed k ≠ 0) ∧
  (∀ k k' : Byte, genSeed k = genSeed k' → k = k') ∧
  genSeed 0x00 = 0x9E37_79B9 ∧ genSeed 0x05 = 0x9E37_79BC ∧ genSeed 0xFF = 0x9E37_7946

/-- R86: one step of the generator, by exact arithmetic; it maps 0 to 0 and nonzero to nonzero; the
examples. -/
def Obligations.GeneratorStepMapsNonzeroToNonzero : Prop :=
  (∀ s : Word, ∃ s1 s2 : Word,
    s1 = s ^^^ BitVec.ofNat 32 (s.toNat * 2 ^ 13) ∧ s2 = s1 ^^^ BitVec.ofNat 32 (s1.toNat / 2 ^ 17) ∧
    genNext s = s2 ^^^ BitVec.ofNat 32 (s2.toNat * 2 ^ 5)) ∧
  (∀ s : Word, genNext s = 0 ↔ s = 0) ∧
  genNext 0x9E37_79BC = 0x5118_E6BC ∧ genNext 0x5118_E6BC = 0xF427_4B3B ∧
  genNext 0xF427_4B3B = 0xB544_96FB ∧ genNext 0xB544_96FB = 0xD4E7_43F6

/-- R88 (a): `GenPerm(k, n)` is a bijection on `[0, n)`: every index occurs exactly once. -/
def Obligations.PermutationIsABijection : Prop :=
  ∀ (k : Byte) (n : Nat), (genPerm k n).length = n ∧
    (∀ i, i < n → (genPerm k n).getD i 0 < n) ∧
    ∀ q, q < n → ∃ i, (i < n ∧ (genPerm k n).getD i 0 = q) ∧
      ∀ j, j < n → (genPerm k n).getD j 0 = q → j = i

/-- R89: the small cases and the reference values. -/
def Obligations.ReferencePermutations : Prop :=
  (∀ k, genPerm k 0 = []) ∧ (∀ k, genPerm k 1 = [0]) ∧
  (∀ k, genPerm k 2 = if (genNext (genSeed k)).toNat % 2 = 0 then [1, 0] else [0, 1]) ∧
  genPerm 5 4 = [2, 1, 3, 0] ∧ genPerm 5 8 = [3, 7, 0, 6, 1, 5, 2, 4] ∧
  genPerm 5 9 = [1, 8, 4, 5, 2, 0, 6, 3, 7] ∧ genPerm 0 8 = [6, 5, 0, 3, 7, 2, 4, 1] ∧
  genPerm 0 9 = [0, 8, 4, 7, 5, 1, 3, 6, 2] ∧ genPerm 7 3 = [0, 2, 1] ∧
  genPerm 85 9 = [1, 5, 2, 7, 0, 8, 3, 4, 6] ∧
  genPerm 200 12 = [4, 7, 2, 0, 3, 8, 10, 9, 5, 11, 6, 1] ∧ genPerm 255 8 = [3, 4, 6, 7, 2, 0, 5, 1]

/-- R91: `PERMUTE`, its result, its one fault and its frame. -/
def Obligations.PermuteGathersThroughThePermutation : Prop :=
  encode .permute = 0x0000_0002 ∧
  ∀ s : State, s.fault = false →
    (s.npix.toNat ≤ s.nmax → ∃ t, exec .permute s = .next t ∧
      (∀ i, i < s.npix.toNat → t.pixel i = s.pixel ((genPerm s.key s.npix.toNat).getD i 0)) ∧
      ((List.range s.npix.toNat).map t.pixel).Perm ((List.range s.npix.toNat).map s.pixel) ∧
      (s.npix.toNat ≤ 1 → sameBytes s t) ∧
      (∀ a, 3 * s.npix.toNat ≤ a → t.byteAt a = s.byteAt a) ∧ SameButPixels s t) ∧
    (s.nmax < s.npix.toNat →
      exec .permute s = .next { s with fault := true, errcode := 2, fcmd := 0x0000_0002 })

/-- R92: `UNPERMUTE`, its result, its one fault and its frame. -/
def Obligations.UnpermuteScattersThroughThePermutation : Prop :=
  encode .unpermute = 0x0000_0003 ∧
  ∀ s : State, s.fault = false →
    (s.npix.toNat ≤ s.nmax → ∃ t, exec .unpermute s = .next t ∧
      (∀ i, i < s.npix.toNat → t.pixel ((genPerm s.key s.npix.toNat).getD i 0) = s.pixel i) ∧
      (s.npix.toNat ≤ 1 → sameBytes s t) ∧
      (∀ a, 3 * s.npix.toNat ≤ a → t.byteAt a = s.byteAt a) ∧ SameButPixels s t) ∧
    (s.nmax < s.npix.toNat →
      exec .unpermute s = .next { s with fault := true, errcode := 2, fcmd := 0x0000_0003 })

/-- R93: `PERMUTE` ; `UNPERMUTE` restores every pixel, and so does the other order. -/
def Obligations.UnpermuteUndoesPermute : Prop :=
  ∀ s : State, s.fault = false → s.npix.toNat ≤ s.nmax →
    (∃ t, runCommands [.permute, .unpermute] s = .next t ∧ sameBytes s t ∧ SameButPixels s t) ∧
    ∃ t, runCommands [.unpermute, .permute] s = .next t ∧ sameBytes s t ∧ SameButPixels s t

/-! ### KeyCodec (40_keycodec.md) -/

/-- R70: `EMBED`, its result, its faults and its frame. -/
def Obligations.EmbedWritesTheKeyIntoTheSlots : Prop :=
  encode .embed = 0x0000_0004 ∧
  ∀ s : State, s.fault = false →
    (s.npix.toNat ≤ s.nmax → 8 ≤ s.npix.toNat → ∃ t, exec .embed s = .next t ∧
      (∀ i, i < 8 → t.byteAt (chanAddr i .blue) =
        (s.byteAt (chanAddr i .blue) &&& 0xFE) ||| (BitVec.ofBool (s.key.getLsbD (7 - i))).setWidth 8) ∧
      (∀ a, (∀ i, i < 8 → a ≠ chanAddr i .blue) → t.byteAt a = s.byteAt a) ∧ SameButPixels s t) ∧
    (s.nmax < s.npix.toNat →
      exec .embed s = .next { s with fault := true, errcode := 2, fcmd := 0x0000_0004 }) ∧
    (s.npix.toNat ≤ s.nmax → s.npix.toNat < 8 →
      exec .embed s = .next { s with fault := true, errcode := 1, fcmd := 0x0000_0004 })

/-- R71: `EXTRACT`, its result, its faults and its frame: `KEY` alone changes. -/
def Obligations.ExtractReadsTheSlotsIntoKey : Prop :=
  encode .extract = 0x0000_0005 ∧
  ∀ s : State, s.fault = false →
    (s.npix.toNat ≤ s.nmax → 8 ≤ s.npix.toNat → ∃ k, exec .extract s = .next { s with key := k } ∧
      ∀ i, i < 8 → k.getLsbD (7 - i) = (s.byteAt (chanAddr i .blue)).getLsbD 0) ∧
    (s.nmax < s.npix.toNat →
      exec .extract s = .next { s with fault := true, errcode := 2, fcmd := 0x0000_0005 }) ∧
    (s.npix.toNat ≤ s.nmax → s.npix.toNat < 8 →
      exec .extract s = .next { s with fault := true, errcode := 1, fcmd := 0x0000_0005 })

/-- R72: an embedded key is extracted again, whatever happened in between that left the slot bits alone. -/
def Obligations.EmbeddedKeyIsExtractedAgain : Prop :=
  ∀ s : State, s.ready 8 → ∃ t, exec .embed s = .next t ∧
    ∀ u : State, u.ready 8 → (∀ i, i < 8 → u.slotBit i = t.slotBit i) →
      ∃ v, exec .extract u = .next v ∧ v.key = s.key

/-- R73: `EMBED` changes at most the 8 slot bits, each exactly when it differs from its key bit. -/
def Obligations.EmbeddingIsLocal : Prop :=
  ∀ s : State, s.ready 8 → ∃ t, exec .embed s = .next t ∧
    ∀ a j, (t.byteAt a).getLsbD j ≠ (s.byteAt a).getLsbD j ↔
      ∃ i, i < 8 ∧ a = chanAddr i .blue ∧ j = 0 ∧ (s.byteAt a).getLsbD 0 ≠ s.key.getLsbD (7 - i)

/-- R76: 8 pixels suffice for both commands, fewer do not. -/
def Obligations.EightPixelsSufficeAndSevenDoNot : Prop :=
  ∀ (s : State) (i : Instr), i = .embed ∨ i = .extract → s.fault = false → s.npix.toNat ≤ s.nmax →
    (s.npix = 8 → ∃ t, exec i s = .next t ∧ t.fault = false) ∧
    (s.npix.toNat ≤ 7 → exec i s = .next { s with fault := true, errcode := 1, fcmd := encode i })

/-! ### Transform (43_transform.md) -/

/-- R100: `GENKEY` loads `KEY` with a fresh draw, any value of [1, 255] (the free value `keyDraw`, log 5),
whatever `NPIX` is, and changes nothing else. -/
def Obligations.GenkeyLoadsADrawnKey : Prop :=
  encode .genkey = 0x0000_0006 ∧
  ∀ s : State, s.fault = false →
    exec .genkey s = .next { s with key := keyDraw s.draws, draws := s.draws + 1 } ∧
    1 ≤ (keyDraw s.draws).toNat ∧ (keyDraw s.draws).toNat ≤ 255

/-- R101: `ENCRYPT`, its closed form, its faults and its frame. -/
def Obligations.EncryptMasksPermutesAndEmbeds : Prop :=
  encode .encrypt = 0x0000_0007 ∧
  ∀ s : State, s.fault = false →
    (s.npix.toNat ≤ s.nmax → 8 ≤ s.npix.toNat → ∃ t k, exec .encrypt s = .next t ∧
      k = keyDraw s.draws ∧ t.key = k ∧ t.draws = s.draws + 1 ∧
      (∀ i, 8 ≤ i → i < s.npix.toNat →
        t.pixel i = s.pixel ((genPerm k s.npix.toNat).getD i 0) ^^^ (k ++ k ++ k)) ∧
      (∀ i, i < 8 → t.pixel i = withBlueBit0
        (s.pixel ((genPerm k s.npix.toNat).getD i 0) ^^^ (k ++ k ++ k)) (k.getLsbD (7 - i))) ∧
      (∀ a, 3 * s.npix.toNat ≤ a → t.byteAt a = s.byteAt a) ∧ SameButPixelsAndKey s t) ∧
    (s.nmax < s.npix.toNat →
      exec .encrypt s = .next { s with fault := true, errcode := 2, fcmd := 0x0000_0007 }) ∧
    (s.npix.toNat ≤ s.nmax → s.npix.toNat < 8 →
      exec .encrypt s = .next { s with fault := true, errcode := 1, fcmd := 0x0000_0007 })

/-- R102: `ENCRYPT` leaves what `GENKEY` ; `MASK` ; `PERMUTE` ; `EMBED` leave, and the same key and pixels as
the last three with the drawn key written to `KEY`. -/
def Obligations.EncryptEqualsItsStages : Prop :=
  ∀ s : State, s.ready 8 →
    runCommands [.genkey, .mask, .permute, .embed] s = exec .encrypt s ∧
    ∃ t u, exec .encrypt s = .next t ∧
      runCommands [.mask, .permute, .embed] { s with key := keyDraw s.draws } = .next u ∧
      t.key = u.key ∧ sameBytes t u

/-- R103: `DECRYPT`, its closed form, its faults and its frame. -/
def Obligations.DecryptExtractsUnpermutesAndUnmasks : Prop :=
  encode .decrypt = 0x0000_0008 ∧
  ∀ s : State, s.fault = false →
    (s.npix.toNat ≤ s.nmax → 8 ≤ s.npix.toNat → ∃ t k, exec .decrypt s = .next t ∧ t.key = k ∧
      (∀ i, i < 8 → k.getLsbD (7 - i) = (s.byteAt (chanAddr i .blue)).getLsbD 0) ∧
      (∀ i, i < s.npix.toNat →
        t.pixel ((genPerm k s.npix.toNat).getD i 0) = s.pixel i ^^^ (k ++ k ++ k)) ∧
      (∀ a, 3 * s.npix.toNat ≤ a → t.byteAt a = s.byteAt a) ∧ SameButPixelsAndKey s t ∧
      t.draws = s.draws) ∧
    (s.nmax < s.npix.toNat →
      exec .decrypt s = .next { s with fault := true, errcode := 2, fcmd := 0x0000_0008 }) ∧
    (s.npix.toNat ≤ s.nmax → s.npix.toNat < 8 →
      exec .decrypt s = .next { s with fault := true, errcode := 1, fcmd := 0x0000_0008 })

/-- R104: `DECRYPT` leaves what `EXTRACT` ; `UNPERMUTE` ; `MASK` leave; with a bad length both fault with
nothing else changed and differ only in `FCMD`. -/
def Obligations.DecryptEqualsItsStages : Prop :=
  (∀ s : State, s.ready 8 → runCommands [.extract, .unpermute, .mask] s = exec .decrypt s) ∧
  ∀ s : State, s.fault = false → s.npix.toNat < 8 ∨ s.nmax < s.npix.toNat →
    ∃ e, exec .decrypt s = .next { s with fault := true, errcode := e, fcmd := 0x0000_0008 } ∧
      runCommands [.extract, .unpermute, .mask] s =
        .next { s with fault := true, errcode := e, fcmd := 0x0000_0005 }

/-- R105: the exact round trip: `ENCRYPT`, then `DECRYPT` with the same length and the same pixels below it
(whatever `KEY` and the pixels at or beyond `NPIX` were set to in between), restores everything but the blue LSB
of the 8 pixels that went into the slots, which come back as `k[7 - i] XOR k[0]`; and so do the stage sequences,
for any key. -/
def Obligations.RoundTripRestoresAllButEightBits : Prop :=
  ∀ s : State, s.ready 8 →
    (∃ t, exec .encrypt s = .next t ∧ ∀ u : State, u.fault = false → u.npix = t.npix → u.cap = t.cap →
      (∀ a, a < 3 * s.npix.toNat → u.byteAt a = t.byteAt a) → ∃ v, exec .decrypt u = .next v ∧
        RestoredButSlots s.npix.toNat (keyDraw s.draws) s v) ∧
    ∃ t, runCommands [.mask, .permute, .embed] s = .next t ∧ ∀ u : State, u.fault = false →
      u.npix = t.npix → u.cap = t.cap → (∀ a, a < 3 * s.npix.toNat → u.byteAt a = t.byteAt a) →
      ∃ v, runCommands [.extract, .unpermute, .mask] u = .next v ∧
        RestoredButSlots s.npix.toNat s.key s v

/-- R106: `DECRYPT` and `EXTRACT` accept whatever the slots spell; with slots of zeros the key is 0, nothing
is masked, and the pixels are still scattered. -/
def Obligations.DecryptAcceptsEveryKey : Prop :=
  ∀ s : State, s.ready 8 →
    (∀ i : Instr, i = .extract ∨ i = .decrypt → ∃ t, exec i s = .next t ∧ t.fault = false ∧
      ∀ j, j < 8 → t.key.getLsbD (7 - j) = s.slotBit j) ∧
    ((∀ j, j < 8 → s.slotBit j = false) → ∃ t, exec .decrypt s = .next t ∧ t.key = 0 ∧
      ∀ i, i < s.npix.toNat → t.pixel ((genPerm 0 s.npix.toNat).getD i 0) = s.pixel i)

/-- R147: with fewer than 8 pixels `ENCRYPT` changes nothing but the fault record, while `MASK` ; `PERMUTE` ;
`EMBED` leaves the sequence masked and permuted with the fault latched; `CLRF` ; `UNPERMUTE` ; `MASK`
recovers. -/
def Obligations.ShortSequenceIsMaskedThenFaultsAndRecovers : Prop :=
  ∀ s : State, s.fault = false → s.npix.toNat ≤ s.nmax → s.npix.toNat < 8 →
    exec .encrypt s = .next { s with fault := true, errcode := 1, fcmd := 0x0000_0007 } ∧
    ∃ t u, runCommands [.mask, .permute, .embed] s = .next t ∧ t.fault = true ∧ t.errcode = 1 ∧
      t.fcmd = 0x0000_0004 ∧ t.key = s.key ∧
      (∀ i, i < s.npix.toNat → t.pixel i =
        s.pixel ((genPerm s.key s.npix.toNat).getD i 0) ^^^ (s.key ++ s.key ++ s.key)) ∧
      runCommands [.clrf, .unpermute, .mask] t = .next u ∧ u.fault = false ∧ u.key = s.key ∧ sameBytes s u

/-! ### What commands touch (10_state.md R21, R22; 20_memory.md R38) -/

/-- R21, R19, R38, the writes: no command writes `NPIX`, a pixel at or beyond `NPIX`, or anything of the port; only
`EXTRACT`, `GENKEY`, `ENCRYPT`, `DECRYPT` write `KEY`; only `GENKEY` and a successful `ENCRYPT` draw; only the
six pixel commands write pixels, and `EMBED` no bit but the 8 slot bits; a command that ends without a fault leaves
the fault record as it was, unless it is `CLRF`; a command that faults writes `STATUS` and `FCMD` only; a command
ignored under a latched fault writes nothing. -/
def Obligations.CommandsWriteOnlyWhatTheTableLists : Prop :=
  ∀ (i : Instr) (s t : State), exec i s = .next t →
    t.npix = s.npix ∧ t.cap = s.cap ∧ t.epoch = s.epoch ∧ t.pending = s.pending ∧ t.resp = s.resp ∧
    (∀ a, 3 * s.npix.toNat ≤ a → t.byteAt a = s.byteAt a) ∧
    (i ∉ [Instr.extract, .genkey, .encrypt, .decrypt] → t.key = s.key) ∧
    (i ∉ [Instr.mask, .permute, .unpermute, .embed, .encrypt, .decrypt] → sameBytes s t) ∧
    (i ∉ [Instr.genkey, .encrypt] → t.draws = s.draws) ∧
    (i = .embed → ∀ a j, j ≠ 0 ∨ (∀ n, n < 8 → a ≠ chanAddr n .blue) →
      (t.byteAt a).getLsbD j = (s.byteAt a).getLsbD j) ∧
    (i ≠ .clrf → t.fault = false → s.fault = false ∧ t.errcode = s.errcode ∧ t.fcmd = s.fcmd) ∧
    (t.fault = true → s.fault = false → t.draws = s.draws ∧ t.key = s.key ∧ sameBytes s t) ∧
    (i ≠ .clrf → s.fault = true → t = s)

/-- R22, R38, the reads: two states that agree on `KEY`, `NPIX`, the fault record, `CAP`, the draws and the
pixels below `NPIX` agree on them after any command: nothing else carries over into a result, not even pixels
at or beyond `NPIX`. -/
def Obligations.CommandsDependOnTheSequenceAlone : Prop :=
  ∀ (i : Instr) (s s' : State), AgreeBelow s.npix.toNat s s' →
    ∃ t t', exec i s = .next t ∧ exec i s' = .next t' ∧ AgreeBelow s.npix.toNat t t'

/-- R21, R148: a successful `EXTRACT`, `GENKEY`, `ENCRYPT` or `DECRYPT` does not look at the old `KEY`: it is
overwritten and lost. -/
def Obligations.OldKeyIsOverwrittenUnseen : Prop :=
  ∀ (s : State) (i : Instr) (k : Byte), i ∈ [Instr.extract, .genkey, .encrypt, .decrypt] →
    s.ready 8 → ∃ t, exec i s = .next t ∧ exec i { s with key := k } = .next t

/-- R142: with `NPIX = 0` (as after reset) `MASK`, `PERMUTE` and `UNPERMUTE` succeed and change nothing, and the
four slot commands raise `InsufficientPixels`. -/
def Obligations.EmptySequenceIsHarmless : Prop :=
  ∀ s : State, s.fault = false → s.npix = 0 →
    (∀ i ∈ [Instr.mask, .permute, .unpermute],
      ∃ t, exec i s = .next t ∧ sameBytes s t ∧ SameButPixels s t) ∧
    ∀ i ∈ [Instr.embed, .extract, .encrypt, .decrypt],
      exec i s = .next { s with fault := true, errcode := 1, fcmd := encode i }
end

