-- ==== Sys2Proof/Laws/State.lean ====
section
/-! SUPPORT. One lemma per field per state update, each true by unfolding the update. -/

namespace Sys2Proof.Machine

variable (s : State)

/-! ### `setByte` -/

@[simp] theorem State.setByte_key (a : Nat) (b : Byte) : (s.setByte a b).key = s.key := rfl
@[simp] theorem State.setByte_npix (a : Nat) (b : Byte) : (s.setByte a b).npix = s.npix := rfl
@[simp] theorem State.setByte_fault (a : Nat) (b : Byte) : (s.setByte a b).fault = s.fault := rfl
@[simp] theorem State.setByte_errcode (a : Nat) (b : Byte) : (s.setByte a b).errcode = s.errcode := rfl
@[simp] theorem State.setByte_fcmd (a : Nat) (b : Byte) : (s.setByte a b).fcmd = s.fcmd := rfl
@[simp] theorem State.setByte_cap (a : Nat) (b : Byte) : (s.setByte a b).cap = s.cap := rfl
@[simp] theorem State.setByte_mem (a : Nat) (b : Byte) : (s.setByte a b).mem = s.mem.write a b := rfl
@[simp] theorem State.setByte_epoch (a : Nat) (b : Byte) : (s.setByte a b).epoch = s.epoch := rfl
@[simp] theorem State.setByte_draws (a : Nat) (b : Byte) : (s.setByte a b).draws = s.draws := rfl
@[simp] theorem State.setByte_pending (a : Nat) (b : Byte) : (s.setByte a b).pending = s.pending := rfl
@[simp] theorem State.setByte_resp (a : Nat) (b : Byte) : (s.setByte a b).resp = s.resp := rfl
@[simp] theorem State.setByte_seqLen (a : Nat) (b : Byte) : (s.setByte a b).seqLen = s.seqLen := rfl
@[simp] theorem State.setByte_nmax (a : Nat) (b : Byte) : (s.setByte a b).nmax = s.nmax := rfl

/-! ### `setPixel` -/

@[simp] theorem State.setPixel_key (i : Nat) (p : Pixel) : (s.setPixel i p).key = s.key := rfl
@[simp] theorem State.setPixel_npix (i : Nat) (p : Pixel) : (s.setPixel i p).npix = s.npix := rfl
@[simp] theorem State.setPixel_fault (i : Nat) (p : Pixel) : (s.setPixel i p).fault = s.fault := rfl
@[simp] theorem State.setPixel_errcode (i : Nat) (p : Pixel) : (s.setPixel i p).errcode = s.errcode := rfl
@[simp] theorem State.setPixel_fcmd (i : Nat) (p : Pixel) : (s.setPixel i p).fcmd = s.fcmd := rfl
@[simp] theorem State.setPixel_cap (i : Nat) (p : Pixel) : (s.setPixel i p).cap = s.cap := rfl
@[simp] theorem State.setPixel_epoch (i : Nat) (p : Pixel) : (s.setPixel i p).epoch = s.epoch := rfl
@[simp] theorem State.setPixel_draws (i : Nat) (p : Pixel) : (s.setPixel i p).draws = s.draws := rfl
@[simp] theorem State.setPixel_pending (i : Nat) (p : Pixel) : (s.setPixel i p).pending = s.pending := rfl
@[simp] theorem State.setPixel_resp (i : Nat) (p : Pixel) : (s.setPixel i p).resp = s.resp := rfl
@[simp] theorem State.setPixel_seqLen (i : Nat) (p : Pixel) : (s.setPixel i p).seqLen = s.seqLen := rfl
@[simp] theorem State.setPixel_nmax (i : Nat) (p : Pixel) : (s.setPixel i p).nmax = s.nmax := rfl

/-! ### `setPixels` -/

@[simp] theorem State.setPixels_key (n : Nat) (f : Nat → Pixel) : (s.setPixels n f).key = s.key := rfl
@[simp] theorem State.setPixels_npix (n : Nat) (f : Nat → Pixel) : (s.setPixels n f).npix = s.npix := rfl
@[simp] theorem State.setPixels_fault (n : Nat) (f : Nat → Pixel) : (s.setPixels n f).fault = s.fault := rfl
@[simp] theorem State.setPixels_errcode (n : Nat) (f : Nat → Pixel) : (s.setPixels n f).errcode = s.errcode := rfl
@[simp] theorem State.setPixels_fcmd (n : Nat) (f : Nat → Pixel) : (s.setPixels n f).fcmd = s.fcmd := rfl
@[simp] theorem State.setPixels_cap (n : Nat) (f : Nat → Pixel) : (s.setPixels n f).cap = s.cap := rfl
@[simp] theorem State.setPixels_mem (n : Nat) (f : Nat → Pixel) : (s.setPixels n f).mem = s.mem.replaceBelow (3 * n) (fun a => pixelByte (f (a / 3)) (a % 3)) := rfl
@[simp] theorem State.setPixels_epoch (n : Nat) (f : Nat → Pixel) : (s.setPixels n f).epoch = s.epoch := rfl
@[simp] theorem State.setPixels_draws (n : Nat) (f : Nat → Pixel) : (s.setPixels n f).draws = s.draws := rfl
@[simp] theorem State.setPixels_pending (n : Nat) (f : Nat → Pixel) : (s.setPixels n f).pending = s.pending := rfl
@[simp] theorem State.setPixels_resp (n : Nat) (f : Nat → Pixel) : (s.setPixels n f).resp = s.resp := rfl
@[simp] theorem State.setPixels_seqLen (n : Nat) (f : Nat → Pixel) : (s.setPixels n f).seqLen = s.seqLen := rfl
@[simp] theorem State.setPixels_nmax (n : Nat) (f : Nat → Pixel) : (s.setPixels n f).nmax = s.nmax := rfl

/-! ### `drawKey` -/

@[simp] theorem drawKey_key : (drawKey s).key = keyDraw s.draws := rfl
@[simp] theorem drawKey_npix : (drawKey s).npix = s.npix := rfl
@[simp] theorem drawKey_fault : (drawKey s).fault = s.fault := rfl
@[simp] theorem drawKey_errcode : (drawKey s).errcode = s.errcode := rfl
@[simp] theorem drawKey_fcmd : (drawKey s).fcmd = s.fcmd := rfl
@[simp] theorem drawKey_cap : (drawKey s).cap = s.cap := rfl
@[simp] theorem drawKey_mem : (drawKey s).mem = s.mem := rfl
@[simp] theorem drawKey_epoch : (drawKey s).epoch = s.epoch := rfl
@[simp] theorem drawKey_draws : (drawKey s).draws = s.draws + 1 := rfl
@[simp] theorem drawKey_pending : (drawKey s).pending = s.pending := rfl
@[simp] theorem drawKey_resp : (drawKey s).resp = s.resp := rfl
@[simp] theorem drawKey_seqLen : (drawKey s).seqLen = s.seqLen := rfl
@[simp] theorem drawKey_nmax : (drawKey s).nmax = s.nmax := rfl

/-! ### `raise` -/

@[simp] theorem raise_key (e : Cause) (w : Word) : (raise e w s).key = s.key := rfl
@[simp] theorem raise_npix (e : Cause) (w : Word) : (raise e w s).npix = s.npix := rfl
@[simp] theorem raise_fault (e : Cause) (w : Word) : (raise e w s).fault = true := rfl
@[simp] theorem raise_errcode (e : Cause) (w : Word) : (raise e w s).errcode = e.code := rfl
@[simp] theorem raise_fcmd (e : Cause) (w : Word) : (raise e w s).fcmd = w := rfl
@[simp] theorem raise_cap (e : Cause) (w : Word) : (raise e w s).cap = s.cap := rfl
@[simp] theorem raise_mem (e : Cause) (w : Word) : (raise e w s).mem = s.mem := rfl
@[simp] theorem raise_epoch (e : Cause) (w : Word) : (raise e w s).epoch = s.epoch := rfl
@[simp] theorem raise_draws (e : Cause) (w : Word) : (raise e w s).draws = s.draws := rfl
@[simp] theorem raise_pending (e : Cause) (w : Word) : (raise e w s).pending = s.pending := rfl
@[simp] theorem raise_resp (e : Cause) (w : Word) : (raise e w s).resp = s.resp := rfl
@[simp] theorem raise_seqLen (e : Cause) (w : Word) : (raise e w s).seqLen = s.seqLen := rfl
@[simp] theorem raise_nmax (e : Cause) (w : Word) : (raise e w s).nmax = s.nmax := rfl

/-! ### `clearFault` -/

@[simp] theorem clearFault_key : (clearFault s).key = s.key := rfl
@[simp] theorem clearFault_npix : (clearFault s).npix = s.npix := rfl
@[simp] theorem clearFault_fault : (clearFault s).fault = false := rfl
@[simp] theorem clearFault_errcode : (clearFault s).errcode = 0 := rfl
@[simp] theorem clearFault_fcmd : (clearFault s).fcmd = 0 := rfl
@[simp] theorem clearFault_cap : (clearFault s).cap = s.cap := rfl
@[simp] theorem clearFault_mem : (clearFault s).mem = s.mem := rfl
@[simp] theorem clearFault_epoch : (clearFault s).epoch = s.epoch := rfl
@[simp] theorem clearFault_draws : (clearFault s).draws = s.draws := rfl
@[simp] theorem clearFault_pending : (clearFault s).pending = s.pending := rfl
@[simp] theorem clearFault_resp : (clearFault s).resp = s.resp := rfl
@[simp] theorem clearFault_seqLen : (clearFault s).seqLen = s.seqLen := rfl
@[simp] theorem clearFault_nmax : (clearFault s).nmax = s.nmax := rfl

/-! ### `extractKey` -/

@[simp] theorem extractKey_key : (extractKey s).key = s.slotKey := rfl
@[simp] theorem extractKey_npix : (extractKey s).npix = s.npix := rfl
@[simp] theorem extractKey_fault : (extractKey s).fault = s.fault := rfl
@[simp] theorem extractKey_errcode : (extractKey s).errcode = s.errcode := rfl
@[simp] theorem extractKey_fcmd : (extractKey s).fcmd = s.fcmd := rfl
@[simp] theorem extractKey_cap : (extractKey s).cap = s.cap := rfl
@[simp] theorem extractKey_mem : (extractKey s).mem = s.mem := rfl
@[simp] theorem extractKey_epoch : (extractKey s).epoch = s.epoch := rfl
@[simp] theorem extractKey_draws : (extractKey s).draws = s.draws := rfl
@[simp] theorem extractKey_pending : (extractKey s).pending = s.pending := rfl
@[simp] theorem extractKey_resp : (extractKey s).resp = s.resp := rfl
@[simp] theorem extractKey_seqLen : (extractKey s).seqLen = s.seqLen := rfl
@[simp] theorem extractKey_nmax : (extractKey s).nmax = s.nmax := rfl

/-! ### reads of the pixel memory after an update that leaves it alone -/

@[simp] theorem drawKey_byteAt (a : Nat) : (drawKey s).byteAt a = s.byteAt a := rfl
@[simp] theorem raise_byteAt (e : Cause) (w : Word) (a : Nat) : (raise e w s).byteAt a = s.byteAt a := rfl
@[simp] theorem clearFault_byteAt (a : Nat) : (clearFault s).byteAt a = s.byteAt a := rfl
@[simp] theorem extractKey_byteAt (a : Nat) : (extractKey s).byteAt a = s.byteAt a := rfl
@[simp] theorem drawKey_pixel (i : Nat) : (drawKey s).pixel i = s.pixel i := rfl
@[simp] theorem raise_pixel (e : Cause) (w : Word) (i : Nat) : (raise e w s).pixel i = s.pixel i := rfl
@[simp] theorem clearFault_pixel (i : Nat) : (clearFault s).pixel i = s.pixel i := rfl
@[simp] theorem extractKey_pixel (i : Nat) : (extractKey s).pixel i = s.pixel i := rfl

/-! ### what two states share, composed -/

theorem SameButPixels.rfl' : SameButPixels s s :=
  ⟨rfl, rfl, rfl, rfl, rfl, rfl, rfl, rfl, rfl, rfl⟩

theorem SameButPixels.trans {s t u : State} (h : SameButPixels s t) (g : SameButPixels t u) :
    SameButPixels s u :=
  ⟨g.key.trans h.key, g.npix.trans h.npix, g.fault.trans h.fault, g.errcode.trans h.errcode,
    g.fcmd.trans h.fcmd, g.cap.trans h.cap, g.epoch.trans h.epoch, g.draws.trans h.draws,
    g.pending.trans h.pending, g.resp.trans h.resp⟩

theorem SameButPixels.seqLen {s t : State} (h : SameButPixels s t) : t.seqLen = s.seqLen :=
  congrArg BitVec.toNat h.npix

theorem SameButPixels.nmax {s t : State} (h : SameButPixels s t) : t.nmax = s.nmax :=
  congrArg BitVec.toNat h.cap

theorem State.setByte_same (a : Nat) (b : Byte) : SameButPixels s (s.setByte a b) :=
  ⟨rfl, rfl, rfl, rfl, rfl, rfl, rfl, rfl, rfl, rfl⟩

theorem State.setPixel_same (i : Nat) (p : Pixel) : SameButPixels s (s.setPixel i p) :=
  ⟨rfl, rfl, rfl, rfl, rfl, rfl, rfl, rfl, rfl, rfl⟩

theorem State.setPixels_same (n : Nat) (f : Nat → Pixel) : SameButPixels s (s.setPixels n f) :=
  ⟨rfl, rfl, rfl, rfl, rfl, rfl, rfl, rfl, rfl, rfl⟩

end Sys2Proof.Machine
end

