-- ==== Sys2Proof/Laws/Memory.lean ====
section
/-! SUPPORT. The pixel memory: read after write, the canonical form, and pixels as three channel bytes. -/

namespace Sys2Proof.Machine

/-! ### lists of channel bytes -/

@[simp] theorem Memory.byte?_nil (a : Nat) : Memory.byte? [] a = none := rfl

theorem Memory.byte?_write (m : Memory) (a : Nat) (b : Byte) (a' : Nat) :
    (m.write a b).byte? a' = if a' = a then some b else m.byte? a' := by
  induction m with
  | nil => simp [Memory.write, Memory.byte?]
  | cons c m ih =>
    obtain ⟨k, v⟩ := c
    simp only [Memory.write]
    split
    · simp [Memory.byte?]
    · split
      · subst_vars
        by_cases h : a' = k <;> simp [Memory.byte?, h]
      · by_cases h : a' = k
        · subst h
          simp [Memory.byte?, Ne.symm (by assumption : ¬a = a')]
        · simp [Memory.byte?, h, ih]

theorem Memory.byte?_append (m m' : Memory) (a : Nat) :
    Memory.byte? (m ++ m') a = (m.byte? a).or (m'.byte? a) := by
  induction m with
  | nil => simp
  | cons c m ih =>
    obtain ⟨k, v⟩ := c
    by_cases h : a = k <;> simp [Memory.byte?, h, ih]

theorem Memory.byte?_filter (m : Memory) (n a : Nat) :
    Memory.byte? (m.filter (fun c => decide (n ≤ c.1))) a = if n ≤ a then m.byte? a else none := by
  induction m with
  | nil => simp
  | cons c m ih =>
    obtain ⟨k, v⟩ := c
    by_cases hk : n ≤ k <;> by_cases h : a = k <;> simp_all [Memory.byte?]

theorem Memory.byte?_tabulate (l : List Nat) (f : Nat → Byte) (a : Nat) :
    Memory.byte? (l.map (fun a => (a, f a))) a = if a ∈ l then some (f a) else none := by
  induction l with
  | nil => simp
  | cons k l ih =>
    by_cases h : a = k <;> simp_all [Memory.byte?]

theorem Memory.byte?_replaceBelow (m : Memory) (n : Nat) (f : Nat → Byte) (a : Nat) :
    (m.replaceBelow n f).byte? a = if a < n then some (f a) else m.byte? a := by
  simp only [Memory.replaceBelow, Memory.byte?_append, Memory.byte?_tabulate, Memory.byte?_filter,
    List.mem_range]
  by_cases h : a < n
  · simp [h]
  · simp [h, Nat.le_of_not_lt h]

theorem Memory.mem_write {m : Memory} {a : Nat} {b : Byte} {c : Host.Cell} (h : c ∈ m.write a b) :
    c = (a, b) ∨ c ∈ m := by
  induction m with
  | nil => simpa [Memory.write] using h
  | cons d m ih =>
    obtain ⟨k, v⟩ := d
    simp only [Memory.write] at h
    split at h
    · simpa using h
    · split at h
      · rcases List.mem_cons.1 h with h | h <;> simp [h]
      · rcases List.mem_cons.1 h with h | h
        · simp [h]
        · rcases ih h with h | h <;> simp [h]

theorem Memory.mem_replaceBelow {m : Memory} {n : Nat} {f : Nat → Byte} {c : Host.Cell}
    (h : c ∈ m.replaceBelow n f) : c.1 < n ∨ c ∈ m := by
  simp only [Memory.replaceBelow, List.mem_append, List.mem_map, List.mem_range, List.mem_filter] at h
  rcases h with ⟨a, ha, rfl⟩ | ⟨h, -⟩
  · exact .inl ha
  · exact .inr h

/-! ### the canonical form is kept by every memory operation -/

theorem Memory.wf_nil : Memory.wf [] := List.Pairwise.nil

theorem Memory.wf_write {m : Memory} (h : m.wf) (a : Nat) (b : Byte) : (m.write a b).wf := by
  induction m with
  | nil => simp [Memory.write, Memory.wf]
  | cons d m ih =>
    obtain ⟨k, v⟩ := d
    obtain ⟨hk, hm⟩ := List.pairwise_cons.1 h
    simp only [Memory.write]
    split
    · refine List.pairwise_cons.2 ⟨fun c hc => ?_, h⟩
      rcases List.mem_cons.1 hc with rfl | hc
      · assumption
      · exact Nat.lt_trans ‹a < k› (hk c hc)
    · split
      · subst_vars
        exact List.pairwise_cons.2 ⟨hk, hm⟩
      · refine List.pairwise_cons.2 ⟨fun c hc => ?_, ih hm⟩
        rcases Memory.mem_write hc with rfl | hc
        · show k < a
          omega
        · exact hk c hc

theorem Memory.wf_replaceBelow {m : Memory} (h : m.wf) (n : Nat) (f : Nat → Byte) :
    (m.replaceBelow n f).wf := by
  refine List.pairwise_append.2 ⟨?_, h.filter _, ?_⟩
  · exact List.pairwise_map.2 (List.pairwise_lt_range.imp fun h => h)
  · intro c hc d hd
    simp only [List.mem_map, List.mem_range, List.mem_filter, decide_eq_true_eq] at hc hd
    obtain ⟨a, ha, rfl⟩ := hc
    exact Nat.lt_of_lt_of_le ha hd.2

theorem Memory.write_write (m : Memory) (a : Nat) (b b' : Byte) :
    (m.write a b).write a b' = m.write a b' := by
  induction m with
  | nil => simp [Memory.write]
  | cons d m ih =>
    obtain ⟨k, v⟩ := d
    by_cases h : a < k
    · simp [Memory.write, h]
    · by_cases h' : a = k
      · simp [Memory.write, h']
      · simp [Memory.write, h, h', ih]

/-- Two canonical memories that list the same bytes are the same data. -/
theorem Memory.wf_ext {m m' : Memory} (h : m.wf) (h' : m'.wf)
    (e : ∀ a, m.byte? a = m'.byte? a) : m = m' := by
  induction m generalizing m' with
  | nil =>
    cases m' with
    | nil => rfl
    | cons d m' => simpa [Memory.byte?] using e d.1
  | cons c m ih =>
    obtain ⟨k, v⟩ := c
    obtain ⟨hk, hm⟩ := List.pairwise_cons.1 h
    have below : ∀ {m : Memory} {a : Nat}, (∀ c ∈ m, a < c.1) → m.byte? a = none := by
      intro m a hm
      induction m with
      | nil => rfl
      | cons d m ih =>
        obtain ⟨j, w⟩ := d
        have hj : a < j := hm (j, w) (by simp)
        rw [Memory.byte?, if_neg (Nat.ne_of_lt hj)]
        exact ih fun c hc => hm c (by simp [hc])
    cases m' with
    | nil => simpa [Memory.byte?] using e k
    | cons d m' =>
      obtain ⟨j, w⟩ := d
      obtain ⟨hj, hm'⟩ := List.pairwise_cons.1 h'
      have hkj : k = j := by
        rcases Nat.lt_trichotomy k j with hlt | heq | hlt
        · have := e k
          rw [below (m := (j, w) :: m') (fun c hc => by
            rcases List.mem_cons.1 hc with rfl | hc
            · exact hlt
            · exact Nat.lt_trans hlt (hj c hc))] at this
          simp [Memory.byte?] at this
        · exact heq
        · have := e j
          rw [below (m := (k, v) :: m) (fun c hc => by
            rcases List.mem_cons.1 hc with rfl | hc
            · exact hlt
            · exact Nat.lt_trans hlt (hk c hc))] at this
          simp [Memory.byte?] at this
      subst hkj
      have hv : v = w := by simpa [Memory.byte?] using e k
      subst hv
      congr 1
      refine ih hm hm' fun a => ?_
      by_cases ha : a = k
      · subst ha
        rw [below hk, below hj]
      · simpa [Memory.byte?, ha] using e a

/-! ### bytes and pixels -/

theorem State.byteAt_setByte (s : State) (a : Nat) (b : Byte) (a' : Nat) :
    (s.setByte a b).byteAt a' = if a' = a then b else s.byteAt a' := by
  simp only [State.byteAt, State.setByte, Memory.byte?_write]
  by_cases h : a' = a <;> simp [h]

@[simp] theorem chanAddr_red (i : Nat) : chanAddr i .red = 3 * i := rfl
@[simp] theorem chanAddr_green (i : Nat) : chanAddr i .green = 3 * i + 1 := rfl
@[simp] theorem chanAddr_blue (i : Nat) : chanAddr i .blue = 3 * i + 2 := rfl

/-- The bits of a pixel, channel by channel (10_state.md R20). -/
theorem pixel_getLsbD (r g b : Byte) (j : Nat) :
    BitVec.getLsbD (w := 24) (r ++ g ++ b) j =
      if j < 8 then b.getLsbD j else if j < 16 then g.getLsbD (j - 8) else r.getLsbD (j - 16) := by
  show BitVec.getLsbD (w := 8 + 8 + 8) ((r ++ g) ++ b) j = _
  rw [BitVec.getLsbD_append, BitVec.getLsbD_append]
  by_cases h : j < 8
  · simp [h]
  · have e : j - 8 - 8 = j - 16 := by omega
    by_cases h' : j < 16
    · simp [h, h', show j - 8 < 8 by omega]
    · simp [h, h', show ¬ j - 8 < 8 by omega, e]

theorem pixelByte_append (r g b : Byte) (c : Nat) (hc : c < 3) :
    pixelByte (r ++ g ++ b) c = if c = 0 then r else if c = 1 then g else b := by
  apply BitVec.eq_of_getLsbD_eq
  intro j hj
  rw [pixelByte, BitVec.getLsbD_extractLsb', pixel_getLsbD]
  have : c = 0 ∨ c = 1 ∨ c = 2 := by omega
  rcases this with rfl | rfl | rfl
  · simp [hj, show ¬ 16 + j < 8 by omega]
  · simp [hj, show 8 + j < 16 by omega]
  · simp [hj]

theorem pixelByte_rebuild (p : Pixel) : pixelByte p 0 ++ pixelByte p 1 ++ pixelByte p 2 = p := by
  apply BitVec.eq_of_getLsbD_eq
  intro j hj
  refine (pixel_getLsbD _ _ _ j).trans ?_
  simp only [pixelByte, BitVec.getLsbD_extractLsb']
  by_cases h0 : j < 8
  · simp [h0]
  · by_cases h1 : j < 16
    · simp [h0, h1, show j - 8 < 8 by omega, show 8 + (j - 8) = j by omega]
    · simp [h0, h1, show j - 16 < 8 by omega, show 16 + (j - 16) = j by omega]

/-- A channel byte is the byte of its pixel. -/
theorem State.byteAt_eq_pixelByte (s : State) (a : Nat) :
    s.byteAt a = pixelByte (s.pixel (a / 3)) (a % 3) := by
  have hc : a % 3 < 3 := Nat.mod_lt _ (by omega)
  have h : a % 3 = 0 ∨ a % 3 = 1 ∨ a % 3 = 2 := by omega
  rw [State.pixel, pixelByte_append _ _ _ _ hc]
  rcases h with h | h | h <;> simp only [h, chanAddr_red, chanAddr_green, chanAddr_blue] <;> simp <;>
    congr 1 <;> omega

/-- Two states have the same pixels exactly when they have the same channel bytes. -/
theorem sameBytes_iff_pixel {s t : State} : sameBytes s t ↔ ∀ i, t.pixel i = s.pixel i := by
  constructor
  · intro h i
    simp only [State.pixel, h _]
  · intro h a
    rw [State.byteAt_eq_pixelByte, State.byteAt_eq_pixelByte, h]

theorem State.byteAt_setPixel (s : State) (i : Nat) (p : Pixel) (a : Nat) :
    (s.setPixel i p).byteAt a = if a / 3 = i then pixelByte p (a % 3) else s.byteAt a := by
  simp only [State.setPixel, State.byteAt_setByte, chanAddr_red, chanAddr_green, chanAddr_blue]
  by_cases h : a / 3 = i
  · have h3 : a % 3 = 0 ∨ a % 3 = 1 ∨ a % 3 = 2 := by omega
    rcases h3 with h3 | h3 | h3
    · have : a = 3 * i := by omega
      subst this
      simp
    · have : a = 3 * i + 1 := by omega
      subst this
      simp [h]
    · have : a = 3 * i + 2 := by omega
      subst this
      simp [h]
  · rw [if_neg h, if_neg (by omega), if_neg (by omega), if_neg (by omega)]

theorem State.pixel_setPixel (s : State) (i : Nat) (p : Pixel) (j : Nat) :
    (s.setPixel i p).pixel j = if j = i then p else s.pixel j := by
  simp only [State.pixel, State.byteAt_setPixel, chanAddr_red, chanAddr_green, chanAddr_blue]
  have e0 : 3 * j / 3 = j := by omega
  have e1 : (3 * j + 1) / 3 = j := by omega
  have e2 : (3 * j + 2) / 3 = j := by omega
  have m0 : 3 * j % 3 = 0 := by omega
  have m1 : (3 * j + 1) % 3 = 1 := by omega
  have m2 : (3 * j + 2) % 3 = 2 := by omega
  simp only [e0, e1, e2, m0, m1, m2]
  by_cases h : j = i
  · simp only [if_pos h]
    exact pixelByte_rebuild p
  · simp only [if_neg h]

theorem State.byteAt_setPixels (s : State) (n : Nat) (f : Nat → Pixel) (a : Nat) :
    (s.setPixels n f).byteAt a = if a < 3 * n then pixelByte (f (a / 3)) (a % 3) else s.byteAt a := by
  simp only [State.byteAt, State.setPixels, Memory.byte?_replaceBelow]
  by_cases h : a < 3 * n <;> simp [h]

theorem State.pixel_setPixels (s : State) (n : Nat) (f : Nat → Pixel) (i : Nat) :
    (s.setPixels n f).pixel i = if i < n then f i else s.pixel i := by
  simp only [State.pixel, State.byteAt_setPixels, chanAddr_red, chanAddr_green, chanAddr_blue]
  have e0 : 3 * i / 3 = i := by omega
  have e1 : (3 * i + 1) / 3 = i := by omega
  have e2 : (3 * i + 2) / 3 = i := by omega
  have m0 : 3 * i % 3 = 0 := by omega
  have m1 : (3 * i + 1) % 3 = 1 := by omega
  have m2 : (3 * i + 2) % 3 = 2 := by omega
  simp only [e0, e1, e2, m0, m1, m2]
  by_cases h : i < n
  · rw [if_pos (by omega), if_pos (by omega), if_pos (by omega), if_pos h]
    exact pixelByte_rebuild (f i)
  · rw [if_neg (by omega), if_neg (by omega), if_neg (by omega), if_neg h]

theorem State.setPixels_sameBeyond (s : State) (n : Nat) (f : Nat → Pixel) :
    sameBeyond n s (s.setPixels n f) := fun a ha => by
  rw [State.byteAt_setPixels, if_neg (Nat.not_lt.2 ha)]

/-! ### legal memories stay legal -/

theorem State.memoryLegal_setByte {s : State} (h : s.memoryLegal) {a : Nat} (ha : a < 3 * s.nmax)
    (b : Byte) : (s.setByte a b).memoryLegal := by
  refine ⟨Memory.wf_write h.1 a b, fun c hc => ?_⟩
  rcases Memory.mem_write hc with rfl | hc
  · exact ha
  · exact h.2 c hc

theorem State.memoryLegal_setPixel {s : State} (h : s.memoryLegal) {i : Nat} (hi : i < s.nmax)
    (p : Pixel) : (s.setPixel i p).memoryLegal := by
  unfold State.setPixel
  refine State.memoryLegal_setByte (State.memoryLegal_setByte (State.memoryLegal_setByte h ?_ _) ?_ _) ?_ _ <;>
  · simp only [chanAddr_red, chanAddr_green, chanAddr_blue, State.setByte_nmax]
    omega

theorem State.memoryLegal_setPixels {s : State} (h : s.memoryLegal) {n : Nat} (hn : n ≤ s.nmax)
    (f : Nat → Pixel) : (s.setPixels n f).memoryLegal := by
  refine ⟨Memory.wf_replaceBelow h.1 _ _, fun c hc => ?_⟩
  rcases Memory.mem_replaceBelow hc with hc | hc
  · show c.1 < 3 * s.nmax
    omega
  · exact h.2 c hc

end Sys2Proof.Machine
end

