-- ==== Sys2Proof/Laws/KeyCodec.lean ====
section
/-! SUPPORT. What embedding writes and what extraction reads. -/

namespace Sys2Proof.Machine

/-! ### one byte -/

theorem withBit0_getLsbD (b : Byte) (bit : Bool) (j : Nat) :
    (withBit0 b bit).getLsbD j = if j = 0 then bit else b.getLsbD j := by
  by_cases hj : j < 8
  · have : j = 0 ∨ j = 1 ∨ j = 2 ∨ j = 3 ∨ j = 4 ∨ j = 5 ∨ j = 6 ∨ j = 7 := by omega
    rcases this with rfl | rfl | rfl | rfl | rfl | rfl | rfl | rfl <;> cases bit <;>
      simp [withBit0]
  · rw [BitVec.getLsbD_of_ge _ _ (by omega), BitVec.getLsbD_of_ge _ _ (by omega), if_neg (by omega)]

theorem withBit0_withBit0 (b : Byte) (x y : Bool) : withBit0 (withBit0 b x) y = withBit0 b y := by
  apply BitVec.eq_of_getLsbD_eq
  intro j _
  simp only [withBit0_getLsbD]
  by_cases h : j = 0 <;> simp [h]

/-! ### embedding -/

theorem embedSlots_same (l : List Nat) (s : State) : SameButPixels s (embedSlots l s) := by
  induction l generalizing s with
  | nil => exact SameButPixels.rfl' s
  | cons i l ih => exact (State.setByte_same s _ _).trans (ih _)

theorem embedSlots_byteAt (l : List Nat) (s : State) (a : Nat) :
    (embedSlots l s).byteAt a =
      if a % 3 = 2 ∧ a / 3 ∈ l then withBit0 (s.byteAt a) (slotKeyBit s.key (a / 3)) else s.byteAt a := by
  induction l generalizing s with
  | nil => simp [embedSlots]
  | cons i l ih =>
    rw [embedSlots, ih]
    simp only [State.byteAt_setByte, State.setByte_key, chanAddr_blue, List.mem_cons]
    by_cases h : a = 3 * i + 2
    · subst h
      have e : (3 * i + 2) / 3 = i := by omega
      have m : (3 * i + 2) % 3 = 2 := by omega
      by_cases hl : i ∈ l <;> simp [e, hl, withBit0_withBit0]
    · by_cases m : a % 3 = 2
      · have : a / 3 ≠ i := by omega
        simp [h, this]
      · simp [h, m]

theorem embedSlots_memoryLegal (l : List Nat) {s : State} (h : s.memoryLegal)
    (hl : ∀ i ∈ l, i < s.nmax) : (embedSlots l s).memoryLegal := by
  induction l generalizing s with
  | nil => exact h
  | cons i l ih =>
    refine ih (State.memoryLegal_setByte h ?_ _) fun j hj => hl j (by simp [hj])
    have : i < s.nmax := hl i (by simp)
    rw [chanAddr_blue]
    omega

theorem embedKey_same (s : State) : SameButPixels s (embedKey s) := embedSlots_same _ _

/-- `EMBED` writes the blue channels of the first 8 pixels and no other byte (40_keycodec.md R70, R73). -/
theorem embedKey_byteAt (s : State) (a : Nat) :
    (embedKey s).byteAt a =
      if a % 3 = 2 ∧ a / 3 < 8 then withBit0 (s.byteAt a) (slotKeyBit s.key (a / 3)) else s.byteAt a := by
  simp only [embedKey, embedSlots_byteAt, slotCount, List.mem_range]

/-- `EMBED` leaves every bit but the 8 slot bits as it was (10_state.md R21; 40_keycodec.md R73). -/
theorem embedKey_getLsbD_other (s : State) {a j : Nat} (h : j ≠ 0 ∨ ∀ i, i < 8 → a ≠ chanAddr i .blue) :
    ((embedKey s).byteAt a).getLsbD j = (s.byteAt a).getLsbD j := by
  rw [embedKey_byteAt]
  split
  case isTrue hs =>
    obtain hj | ha := h
    · rw [withBit0_getLsbD, if_neg hj]
    · exact absurd (by rw [chanAddr_blue]; omega) (ha (a / 3) hs.2)
  case isFalse => rfl

theorem embedKey_memoryLegal {s : State} (h : s.memoryLegal) (h8 : 8 ≤ s.nmax) :
    (embedKey s).memoryLegal :=
  embedSlots_memoryLegal _ h fun _ hi => Nat.lt_of_lt_of_le (List.mem_range.1 hi) h8

theorem withBlueBit0_getLsbD (p : Pixel) (bit : Bool) (j : Nat) :
    (withBlueBit0 p bit).getLsbD j = if j = 0 then bit else p.getLsbD j := by
  have hm : ∀ j < 24, (0xFF_FFFE : Pixel).getLsbD j = decide (j ≠ 0) := by decide
  have hb : ((BitVec.ofBool bit).setWidth 24).getLsbD j = (decide (j = 0) && bit) := by
    rw [BitVec.getLsbD_setWidth, BitVec.getLsbD_ofBool]
    by_cases h : j = 0 <;> simp [h]
  by_cases hj : j < 24
  · rw [withBlueBit0, BitVec.getLsbD_or, BitVec.getLsbD_and, hm j hj, hb]
    by_cases h : j = 0 <;> simp [h]
  · rw [BitVec.getLsbD_of_ge _ _ (by omega), BitVec.getLsbD_of_ge _ _ (by omega), if_neg (by omega)]

/-- `EMBED` by pixels: bit 0 of blue in the first 8 pixels, nothing else (40_keycodec.md R70). -/
theorem embedKey_pixel (s : State) (i : Nat) :
    (embedKey s).pixel i =
      if i < 8 then withBlueBit0 (s.pixel i) (slotKeyBit s.key i) else s.pixel i := by
  have e0 : 3 * i % 3 = 0 := by omega
  have e1 : (3 * i + 1) % 3 = 1 := by omega
  have e2 : (3 * i + 2) % 3 = 2 := by omega
  have d2 : (3 * i + 2) / 3 = i := by omega
  have hL : (embedKey s).pixel i = s.byteAt (3 * i) ++ s.byteAt (3 * i + 1) ++
      (if i < 8 then withBit0 (s.byteAt (3 * i + 2)) (slotKeyBit s.key i) else s.byteAt (3 * i + 2)) := by
    simp [State.pixel, embedKey_byteAt, e0, e1, e2, d2]
  rw [hL]
  by_cases h : i < 8
  · rw [if_pos h, if_pos h]
    apply BitVec.eq_of_getLsbD_eq
    intro j _
    refine (pixel_getLsbD _ _ _ j).trans ?_
    rw [withBlueBit0_getLsbD, State.pixel, withBit0_getLsbD, pixel_getLsbD]
    simp only [chanAddr_red, chanAddr_green, chanAddr_blue]
    by_cases h0 : j = 0
    · simp [h0]
    · simp [h0]
  · rw [if_neg h, if_neg h]
    rfl

theorem embedKey_sameBeyond (s : State) {n : Nat} (hn : 8 ≤ n) : sameBeyond n s (embedKey s) := by
  intro a ha
  rw [embedKey_byteAt, if_neg]
  omega

/-! ### extraction -/

/-- Bit 0 of blue is bit 0 of the pixel (10_state.md R20; 40_keycodec.md R74). -/
theorem State.slotBit_eq (s : State) (i : Nat) : s.slotBit i = (s.pixel i).getLsbD 0 := by
  rw [State.pixel, pixel_getLsbD]
  rfl

/-- The extracted key carries slot `i` in bit `7 - i` (40_keycodec.md R71, R74). -/
theorem slotKeyBit_slotKey (s : State) (i : Nat) (hi : i < 8) : slotKeyBit s.slotKey i = s.slotBit i := by
  have : i = 0 ∨ i = 1 ∨ i = 2 ∨ i = 3 ∨ i = 4 ∨ i = 5 ∨ i = 6 ∨ i = 7 := by omega
  rcases this with rfl | rfl | rfl | rfl | rfl | rfl | rfl | rfl <;>
  · simp only [slotKeyBit, State.slotKey]
    generalize s.slotBit 0 = b0
    generalize s.slotBit 1 = b1
    generalize s.slotBit 2 = b2
    generalize s.slotBit 3 = b3
    generalize s.slotBit 4 = b4
    generalize s.slotBit 5 = b5
    generalize s.slotBit 6 = b6
    generalize s.slotBit 7 = b7
    revert b0 b1 b2 b3 b4 b5 b6 b7
    decide

/-- Two keys with the same slot bits are the same key. -/
theorem slotKeyBit_ext {k k' : Byte} (h : ∀ i < 8, slotKeyBit k i = slotKeyBit k' i) : k = k' := by
  apply BitVec.eq_of_getLsbD_eq
  intro j hj
  have := h (7 - j) (by omega)
  simpa [slotKeyBit, show 7 - (7 - j) = j by omega] using this

/-- Extraction after embedding gives the key (40_keycodec.md R72). -/
theorem slotKey_of_slots {s : State} {k : Byte} (h : ∀ i < 8, (s.pixel i).getLsbD 0 = slotKeyBit k i) :
    s.slotKey = k :=
  slotKeyBit_ext fun i hi => by rw [slotKeyBit_slotKey s i hi, State.slotBit_eq, h i hi]

end Sys2Proof.Machine
end

