-- ==== Sys2Proof/Laws/Masker.lean ====
section
/-! SUPPORT. What the mask does. -/

namespace Sys2Proof.Machine

theorem maskPixels_same (s : State) : SameButPixels s (maskPixels s) := State.setPixels_same _ _ _

theorem maskPixels_pixel (s : State) (i : Nat) :
    (maskPixels s).pixel i = if i < s.seqLen then s.pixel i ^^^ keyMask s.key else s.pixel i :=
  State.pixel_setPixels _ _ _ _

theorem maskPixels_sameBeyond (s : State) : sameBeyond s.seqLen s (maskPixels s) :=
  State.setPixels_sameBeyond _ _ _

theorem maskPixels_memoryLegal {s : State} (h : s.memoryLegal) (hn : s.seqLen ≤ s.nmax) :
    (maskPixels s).memoryLegal := State.memoryLegal_setPixels h hn _

/-- XOR with `{k, k, k}` is XOR with `k` in every channel (41_masker.md R80). -/
theorem pixelByte_xor_keyMask (p : Pixel) (k : Byte) (c : Nat) (hc : c < 3) :
    pixelByte (p ^^^ keyMask k) c = pixelByte p c ^^^ k := by
  have h : pixelByte (keyMask k) c = k := by
    rw [keyMask, pixelByte_append _ _ _ _ hc]
    split <;> [rfl; split <;> rfl]
  rw [pixelByte, BitVec.extractLsb'_xor]
  exact congrArg (pixelByte p c ^^^ ·) h

theorem maskPixels_byteAt (s : State) (a : Nat) :
    (maskPixels s).byteAt a = if a < 3 * s.seqLen then s.byteAt a ^^^ s.key else s.byteAt a := by
  rw [maskPixels, State.byteAt_setPixels]
  by_cases h : a < 3 * s.seqLen
  · rw [if_pos h, if_pos h, pixelByte_xor_keyMask _ _ _ (Nat.mod_lt _ (by omega)),
      ← State.byteAt_eq_pixelByte]
  · rw [if_neg h, if_neg h]

end Sys2Proof.Machine
end

