-- ==== Sys2Proof/Laws/Shuffler.lean ====
section
/-! SUPPORT. The permutation generator, the gather and the scatter. -/

namespace Sys2Proof.Machine

/-! ### the generator's step keeps 0 apart (42_shuffler.md R86) -/

theorem eq_zero_of_xor_shiftLeft {s : Word} {n : Nat} (hn : 0 < n) (h : s ^^^ (s <<< n) = 0) : s = 0 := by
  have e : s = s <<< n := by
    have := congrArg (· ^^^ (s <<< n)) h
    simpa [BitVec.xor_assoc] using this
  apply BitVec.eq_of_getLsbD_eq
  intro j
  induction j using Nat.strong_induction_on with
  | _ j ih =>
    intro hj
    rw [e, BitVec.getLsbD_shiftLeft]
    by_cases hjn : j < n
    · simp [hjn]
    · simp [hjn, ih (j - n) (by omega) (by omega)]

theorem eq_zero_of_xor_ushiftRight {s : Word} {n : Nat} (hn : 0 < n) (h : s ^^^ (s >>> n) = 0) : s = 0 := by
  have e : s = s >>> n := by
    have := congrArg (· ^^^ (s >>> n)) h
    simpa [BitVec.xor_assoc] using this
  have key : ∀ d j, j + d = 32 → s.getLsbD j = false := by
    intro d
    induction d using Nat.strong_induction_on with
    | _ d ih =>
      intro j hj
      rw [e, BitVec.getLsbD_ushiftRight]
      by_cases hd : n ≤ d
      · exact ih (d - n) (by omega) (n + j) (by omega)
      · exact BitVec.getLsbD_of_ge s (n + j) (by omega)
  apply BitVec.eq_of_getLsbD_eq
  intro j hj
  rw [key (32 - j) j (by omega)]
  simp

theorem genNext_eq_zero {s : Word} (h : genNext s = 0) : s = 0 :=
  eq_zero_of_xor_shiftLeft (by decide)
    (eq_zero_of_xor_ushiftRight (by decide) (eq_zero_of_xor_shiftLeft (n := 5) (by decide) h))

/-! ### the permutation is a bijection (42_shuffler.md R88 (a)) -/

@[simp] theorem swapCells_length (P : List Nat) (i j : Nat) : (swapCells P i j).length = P.length := by
  simp [swapCells]

theorem swapCells_perm {P : List Nat} {i j : Nat} (hi : i < P.length) (hj : j < P.length) :
    (swapCells P i j).Perm P := by
  rw [swapCells, List.getD_eq_getElem _ _ hi, List.getD_eq_getElem _ _ hj]
  exact List.set_set_perm hi hj

theorem shuffleDown_perm (i : Nat) (S : Word) (P : List Nat) (h : i < P.length ∨ i = 0) :
    (shuffleDown i S P).Perm P := by
  induction i generalizing S P with
  | zero => exact List.Perm.refl _
  | succ i ih =>
    have hi : i + 1 < P.length := by omega
    have hj : (genNext S).toNat % (i + 2) < P.length :=
      Nat.lt_of_lt_of_le (Nat.mod_lt _ (by omega)) hi
    refine (ih _ _ (.inl ?_)).trans (swapCells_perm hi hj)
    rw [swapCells_length]
    omega

theorem genPerm_perm (k : Byte) (n : Nat) : (genPerm k n).Perm (List.range n) := by
  refine shuffleDown_perm _ _ _ ?_
  rw [List.length_range]
  omega

@[simp] theorem genPerm_length (k : Byte) (n : Nat) : (genPerm k n).length = n := by
  rw [(genPerm_perm k n).length_eq, List.length_range]

theorem genPerm_nodup (k : Byte) (n : Nat) : (genPerm k n).Nodup :=
  (genPerm_perm k n).nodup_iff.2 List.nodup_range

theorem mem_genPerm {k : Byte} {n q : Nat} : q ∈ genPerm k n ↔ q < n := by
  rw [(genPerm_perm k n).mem_iff, List.mem_range]

theorem genPerm_getD_lt {k : Byte} {n i : Nat} (h : i < n) : (genPerm k n).getD i 0 < n := by
  have h' : i < (genPerm k n).length := by simpa using h
  rw [List.getD_eq_getElem _ _ h']
  exact mem_genPerm.1 (List.getElem_mem h')

theorem genPerm_getD_inj {k : Byte} {n i j : Nat} (hi : i < n) (hj : j < n)
    (h : (genPerm k n).getD i 0 = (genPerm k n).getD j 0) : i = j := by
  have hi' : i < (genPerm k n).length := by simpa using hi
  have hj' : j < (genPerm k n).length := by simpa using hj
  rw [List.getD_eq_getElem _ _ hi', List.getD_eq_getElem _ _ hj'] at h
  exact (genPerm_nodup k n).getElem_inj_iff.1 h

theorem genPerm_getD_surj {k : Byte} {n q : Nat} (h : q < n) : ∃ i, i < n ∧ (genPerm k n).getD i 0 = q := by
  obtain ⟨i, hi, e⟩ := List.mem_iff_getElem.1 (mem_genPerm.2 h : q ∈ genPerm k n)
  exact ⟨i, by simpa using hi, by rw [List.getD_eq_getElem _ _ hi, e]⟩

/-- The gather of a sequence has the same pixels, in another order (42_shuffler.md R91). -/
theorem map_genPerm_perm {α : Type} (k : Byte) (n : Nat) (f : Nat → α) :
    ((List.range n).map fun i => f ((genPerm k n).getD i 0)).Perm ((List.range n).map f) := by
  have e : ((List.range n).map fun i => (genPerm k n).getD i 0) = genPerm k n := by
    apply List.ext_getElem
    · simp
    · intro i h1 h2
      rw [List.getElem_map, List.getElem_range, List.getD_eq_getElem _ _ h2]
  have := (genPerm_perm k n).map f
  rw [← e, List.map_map] at this
  exact this

/-! ### the gather (42_shuffler.md R91) -/

theorem permutePixels_same (s : State) : SameButPixels s (permutePixels s) := by
  simp only [permutePixels]
  exact State.setPixels_same _ _ _

theorem permutePixels_pixel (s : State) (i : Nat) :
    (permutePixels s).pixel i = if i < s.seqLen then s.pixel (s.permAt i) else s.pixel i := by
  simp only [permutePixels, State.pixel_setPixels, State.permAt]

theorem permutePixels_sameBeyond (s : State) : sameBeyond s.seqLen s (permutePixels s) := by
  simp only [permutePixels]
  exact State.setPixels_sameBeyond _ _ _

theorem permutePixels_memoryLegal {s : State} (h : s.memoryLegal) (hn : s.seqLen ≤ s.nmax) :
    (permutePixels s).memoryLegal := by
  simp only [permutePixels]
  exact State.memoryLegal_setPixels h hn _

/-! ### the scatter (42_shuffler.md R92) -/

theorem scatterPixels_same (old : State) (P l : List Nat) (t : State) :
    SameButPixels t (scatterPixels old P l t) := by
  induction l generalizing t with
  | nil => exact SameButPixels.rfl' t
  | cons i l ih => exact (State.setPixel_same t _ _).trans (ih _)

theorem scatterPixels_pixel_other (old : State) (P l : List Nat) (t : State) (q : Nat)
    (h : ∀ i ∈ l, P.getD i 0 ≠ q) : (scatterPixels old P l t).pixel q = t.pixel q := by
  induction l generalizing t with
  | nil => rfl
  | cons i l ih =>
    rw [scatterPixels, ih _ fun j hj => h j (by simp [hj]), State.pixel_setPixel,
      if_neg (h i (by simp)).symm]

theorem scatterPixels_pixel_target (old : State) (P l : List Nat) (t : State) (i : Nat) (hi : i ∈ l)
    (inj : ∀ j ∈ l, P.getD j 0 = P.getD i 0 → j = i) :
    (scatterPixels old P l t).pixel (P.getD i 0) = old.pixel i := by
  induction l generalizing t with
  | nil => simp at hi
  | cons j l ih =>
    rw [scatterPixels]
    by_cases hil : i ∈ l
    · exact ih _ hil fun j hj => inj j (by simp [hj])
    · have hij : i = j := by simpa [hil] using hi
      subst hij
      rw [scatterPixels_pixel_other, State.pixel_setPixel, if_pos rfl]
      intro j hj e
      exact hil (inj j (by simp [hj]) e ▸ hj)

theorem scatterPixels_memoryLegal (old : State) (P l : List Nat) (t : State) (ht : t.memoryLegal)
    (h : ∀ i ∈ l, P.getD i 0 < t.nmax) : (scatterPixels old P l t).memoryLegal := by
  induction l generalizing t with
  | nil => exact ht
  | cons i l ih =>
    exact ih _ (State.memoryLegal_setPixel ht (h i (by simp)) _) fun j hj => h j (by simp [hj])

theorem unpermutePixels_same (s : State) : SameButPixels s (unpermutePixels s) :=
  scatterPixels_same _ _ _ _

theorem unpermutePixels_pixel_target (s : State) {i : Nat} (hi : i < s.seqLen) :
    (unpermutePixels s).pixel (s.permAt i) = s.pixel i := by
  rw [unpermutePixels, State.permAt]
  exact scatterPixels_pixel_target _ _ _ _ i (List.mem_range.2 hi) fun _ hj e =>
    genPerm_getD_inj (List.mem_range.1 hj) hi e

theorem unpermutePixels_pixel_beyond (s : State) {q : Nat} (hq : s.seqLen ≤ q) :
    (unpermutePixels s).pixel q = s.pixel q := by
  rw [unpermutePixels]
  exact scatterPixels_pixel_other _ _ _ _ q fun _ hi e =>
    absurd (e ▸ genPerm_getD_lt (List.mem_range.1 hi)) (Nat.not_lt.2 hq)

theorem unpermutePixels_sameBeyond (s : State) : sameBeyond s.seqLen s (unpermutePixels s) := by
  intro a ha
  rw [State.byteAt_eq_pixelByte, State.byteAt_eq_pixelByte,
    unpermutePixels_pixel_beyond s (by omega : s.seqLen ≤ a / 3)]

theorem unpermutePixels_memoryLegal {s : State} (h : s.memoryLegal) (hn : s.seqLen ≤ s.nmax) :
    (unpermutePixels s).memoryLegal :=
  scatterPixels_memoryLegal _ _ _ _ h fun _ hi =>
    Nat.lt_of_lt_of_le (genPerm_getD_lt (List.mem_range.1 hi)) hn

end Sys2Proof.Machine
end

