-- ==== Sys2Proof/Laws/Commands.lean ====
section
/-! SUPPORT. The operand check, the latched fault, and what each command can answer. -/

namespace Sys2Proof.Machine

/-! ### the shared operations -/

theorem unlessLatched_latched {s : State} (h : s.fault = true) (body : State → State) :
    unlessLatched s body = s := by
  rw [unlessLatched, if_pos h]

theorem unlessLatched_clear {s : State} (h : s.fault = false) (body : State → State) :
    unlessLatched s body = body s := by
  rw [unlessLatched, if_neg (by simp [h])]

theorem checkLen_pass {min : Nat} {s : State} (h : s.ready min) (w : Word) (body : State → State) :
    checkLen min w s body = body s := by
  rw [checkLen, if_neg (Nat.not_lt.2 h.2.1), if_neg (Nat.not_lt.2 h.2.2)]

theorem checkLen_badLength {s : State} (h : s.nmax < s.seqLen) (min : Nat) (w : Word)
    (body : State → State) : checkLen min w s body = raise .badLength w s := by
  rw [checkLen, if_pos h]

theorem checkLen_insufficient {s : State} {min : Nat} (h : s.seqLen ≤ s.nmax) (h' : s.seqLen < min)
    (w : Word) (body : State → State) : checkLen min w s body = raise .insufficientPixels w s := by
  rw [checkLen, if_neg (Nat.not_lt.2 h), if_pos h']

/-- Everything a checked command can do (60_exceptions.md R122, R126). -/
theorem unlessLatched_checkLen_cases (min : Nat) (w : Word) (s : State) (body : State → State) :
    (s.fault = true ∧ (unlessLatched s fun s => checkLen min w s body) = s) ∨
    (s.fault = false ∧ s.nmax < s.seqLen ∧
      (unlessLatched s fun s => checkLen min w s body) = raise .badLength w s) ∨
    (s.fault = false ∧ s.seqLen ≤ s.nmax ∧ s.seqLen < min ∧
      (unlessLatched s fun s => checkLen min w s body) = raise .insufficientPixels w s) ∨
    (s.ready min ∧ (unlessLatched s fun s => checkLen min w s body) = body s) := by
  cases hf : s.fault with
  | true => exact .inl ⟨rfl, unlessLatched_latched hf _⟩
  | false =>
    rw [unlessLatched_clear hf]
    by_cases h : s.nmax < s.seqLen
    · exact .inr (.inl ⟨rfl, h, checkLen_badLength h _ _ _⟩)
    · by_cases h' : s.seqLen < min
      · exact .inr (.inr (.inl ⟨rfl, by omega, h', checkLen_insufficient (by omega) h' _ _⟩))
      · have hr : s.ready min := ⟨hf, by omega, by omega⟩
        exact .inr (.inr (.inr ⟨hr, checkLen_pass hr _ _⟩))

/-! ### the commands by their bodies -/

/-- The fewest pixels a datapath command needs; `none` for a command without an operand check
(60_exceptions.md R120, R122). -/
def minPixels : Instr → Option Nat
  | .mask | .permute | .unpermute => some 0
  | .embed | .extract | .encrypt | .decrypt => some 8
  | .nop | .genkey | .clrf => none

/-- What a command does once it is neither ignored nor faulted. -/
def commandBody : Instr → State → State
  | .nop => id
  | .mask => maskPixels
  | .permute => permutePixels
  | .unpermute => unpermutePixels
  | .embed => embedKey
  | .extract => extractKey
  | .genkey => drawKey
  | .encrypt => encryptPixels
  | .decrypt => decryptPixels
  | .clrf => clearFault

theorem exec_eq_of_minPixels {i : Instr} {m : Nat} (h : minPixels i = some m) (s : State) :
    exec i s = .next (unlessLatched s fun s => checkLen m (encode i) s (commandBody i)) := by
  cases i <;> simp only [minPixels, Option.some.injEq, reduceCtorEq] at h <;> subst h <;> rfl

/-- A datapath command that is ready does its work (60_exceptions.md R122). -/
theorem exec_ready {i : Instr} {m : Nat} (h : minPixels i = some m) {s : State} (hs : s.ready m) :
    exec i s = .next (commandBody i s) := by
  rw [exec_eq_of_minPixels h, unlessLatched_clear hs.1, checkLen_pass hs]

theorem exec_badLength {i : Instr} {m : Nat} (h : minPixels i = some m) {s : State}
    (hf : s.fault = false) (hn : s.nmax < s.seqLen) :
    exec i s = .next (raise .badLength (encode i) s) := by
  rw [exec_eq_of_minPixels h, unlessLatched_clear hf, checkLen_badLength hn]

theorem exec_insufficient {i : Instr} {m : Nat} (h : minPixels i = some m) {s : State}
    (hf : s.fault = false) (hn : s.seqLen ≤ s.nmax) (hm : s.seqLen < m) :
    exec i s = .next (raise .insufficientPixels (encode i) s) := by
  rw [exec_eq_of_minPixels h, unlessLatched_clear hf, checkLen_insufficient hn hm]

theorem exec_clrf (s : State) : exec .clrf s = .next (clearFault s) := rfl

theorem exec_nop (s : State) : exec .nop s = .next s := by
  show Host.Outcome.next (unlessLatched s id) = _
  rw [unlessLatched]
  split <;> rfl

theorem exec_genkey {s : State} (h : s.fault = false) : exec .genkey s = .next (drawKey s) :=
  congrArg Host.Outcome.next (unlessLatched_clear h _)

theorem exec_latched {i : Instr} (hi : i ≠ .clrf) {s : State} (h : s.fault = true) :
    exec i s = .next s := by
  cases i <;> first | exact absurd rfl hi | exact congrArg Host.Outcome.next (unlessLatched_latched h _)

/-- Everything a command can answer, said once. -/
theorem exec_cases (i : Instr) (s : State) :
    (i = .clrf ∧ exec i s = .next (clearFault s)) ∨
    (i ≠ .clrf ∧ s.fault = true ∧ exec i s = .next s) ∨
    (i ≠ .clrf ∧ minPixels i = none ∧ s.fault = false ∧ exec i s = .next (commandBody i s)) ∨
    (∃ m, minPixels i = some m ∧ s.fault = false ∧ s.nmax < s.seqLen ∧
      exec i s = .next (raise .badLength (encode i) s)) ∨
    (∃ m, minPixels i = some m ∧ s.fault = false ∧ s.seqLen ≤ s.nmax ∧ s.seqLen < m ∧
      exec i s = .next (raise .insufficientPixels (encode i) s)) ∨
    (∃ m, minPixels i = some m ∧ s.ready m ∧ exec i s = .next (commandBody i s)) := by
  by_cases hi : i = .clrf
  · exact .inl ⟨hi, hi ▸ exec_clrf s⟩
  cases hf : s.fault with
  | true => exact .inr (.inl ⟨hi, rfl, exec_latched hi hf⟩)
  | false =>
    cases hm : minPixels i with
    | none =>
      refine .inr (.inr (.inl ⟨hi, rfl, rfl, ?_⟩))
      cases i <;> first
        | exact absurd rfl hi
        | exact exec_nop s
        | exact exec_genkey hf
        | simp [minPixels] at hm
    | some m =>
      by_cases h : s.nmax < s.seqLen
      · exact .inr (.inr (.inr (.inl ⟨m, rfl, rfl, h, exec_badLength hm hf h⟩)))
      · by_cases h' : s.seqLen < m
        · exact .inr (.inr (.inr (.inr (.inl ⟨m, rfl, rfl, by omega, h',
            exec_insufficient hm hf (by omega) h'⟩))))
        · have hr : s.ready m := ⟨hf, by omega, by omega⟩
          exact .inr (.inr (.inr (.inr (.inr ⟨m, rfl, hr, exec_ready hm hr⟩))))

theorem exec_answers (i : Instr) (s : State) : ∃ t, exec i s = .next t := by
  rcases exec_cases i s with ⟨-, h⟩ | ⟨-, -, h⟩ | ⟨-, -, -, h⟩ | ⟨_, -, -, -, h⟩ | ⟨_, -, -, -, -, h⟩ | ⟨_, -, -, h⟩ <;>
    exact ⟨_, h⟩

/-! ### the composites by their stages -/

theorem encryptPixels_same (s : State) : SameButPixels (drawKey s) (encryptPixels s) :=
  ((maskPixels_same _).trans (permutePixels_same _)).trans (embedKey_same _)

theorem decryptPixels_same (s : State) : SameButPixels (extractKey s) (decryptPixels s) :=
  (unpermutePixels_same _).trans (maskPixels_same _)

/-- What the commands leave alone once they run: all but `KEY`, the draws and the pixels. -/
theorem commandBody_same {i : Instr} (hi : i ≠ .clrf) (s : State) :
    SameButPixelsAndKey s (commandBody i s) := by
  have key {t u : State} (h : SameButPixels t u) (e : SameButPixelsAndKey s t) : SameButPixelsAndKey s u :=
    ⟨h.npix.trans e.npix, h.fault.trans e.fault, h.errcode.trans e.errcode, h.fcmd.trans e.fcmd,
      h.cap.trans e.cap, h.epoch.trans e.epoch, h.pending.trans e.pending, h.resp.trans e.resp⟩
  have refl : SameButPixelsAndKey s s := ⟨rfl, rfl, rfl, rfl, rfl, rfl, rfl, rfl⟩
  cases i with
  | nop => exact refl
  | mask => exact key (maskPixels_same s) refl
  | permute => exact key (permutePixels_same s) refl
  | unpermute => exact key (unpermutePixels_same s) refl
  | embed => exact key (embedKey_same s) refl
  | extract => exact ⟨rfl, rfl, rfl, rfl, rfl, rfl, rfl, rfl⟩
  | genkey => exact ⟨rfl, rfl, rfl, rfl, rfl, rfl, rfl, rfl⟩
  | encrypt => exact key (encryptPixels_same s) ⟨rfl, rfl, rfl, rfl, rfl, rfl, rfl, rfl⟩
  | decrypt => exact key (decryptPixels_same s) ⟨rfl, rfl, rfl, rfl, rfl, rfl, rfl, rfl⟩
  | clrf => exact absurd rfl hi

theorem sameBeyond.trans {n : Nat} {s t u : State} (h : sameBeyond n s t) (g : sameBeyond n t u) :
    sameBeyond n s u := fun a ha => (g a ha).trans (h a ha)

theorem encryptPixels_sameBeyond {s : State} (h : 8 ≤ s.seqLen) :
    sameBeyond s.seqLen s (encryptPixels s) := by
  have hm := maskPixels_sameBeyond (drawKey s)
  have hp := permutePixels_sameBeyond (maskPixels (drawKey s))
  rw [(maskPixels_same _).seqLen] at hp
  exact (hm.trans hp).trans (embedKey_sameBeyond _ h)

theorem decryptPixels_sameBeyond (s : State) : sameBeyond s.seqLen s (decryptPixels s) := by
  have hu := unpermutePixels_sameBeyond (extractKey s)
  have hm := maskPixels_sameBeyond (unpermutePixels (extractKey s))
  rw [(unpermutePixels_same _).seqLen] at hm
  exact hu.trans hm

theorem drawKey_memoryLegal {s : State} (h : s.memoryLegal) : (drawKey s).memoryLegal := h

theorem extractKey_memoryLegal {s : State} (h : s.memoryLegal) : (extractKey s).memoryLegal := h

theorem encryptPixels_memoryLegal {s : State} (h : s.memoryLegal) (hs : s.ready 8) :
    (encryptPixels s).memoryLegal := by
  have h1 := maskPixels_memoryLegal (drawKey_memoryLegal h) hs.2.1
  have e1 := maskPixels_same (drawKey s)
  have h2 := permutePixels_memoryLegal h1 (by rw [e1.seqLen, e1.nmax]; exact hs.2.1)
  have e2 := e1.trans (permutePixels_same _)
  exact embedKey_memoryLegal h2 (by rw [e2.nmax]; exact Nat.le_trans hs.2.2 hs.2.1)

theorem decryptPixels_memoryLegal {s : State} (h : s.memoryLegal) (hs : s.ready 8) :
    (decryptPixels s).memoryLegal := by
  have h1 := unpermutePixels_memoryLegal (extractKey_memoryLegal h) hs.2.1
  have e1 := unpermutePixels_same (extractKey s)
  exact maskPixels_memoryLegal h1 (by rw [e1.seqLen, e1.nmax]; exact hs.2.1)

theorem commandBody_memoryLegal {i : Instr} {m : Nat} (hi : minPixels i = some m) {s : State}
    (hs : s.ready m) (h : s.memoryLegal) : (commandBody i s).memoryLegal := by
  cases i <;> simp only [minPixels, Option.some.injEq, reduceCtorEq] at hi <;> subst hi
  · exact maskPixels_memoryLegal h hs.2.1
  · exact permutePixels_memoryLegal h hs.2.1
  · exact unpermutePixels_memoryLegal h hs.2.1
  · exact embedKey_memoryLegal h (Nat.le_trans hs.2.2 hs.2.1)
  · exact h
  · exact encryptPixels_memoryLegal h hs
  · exact decryptPixels_memoryLegal h hs

theorem commandBody_sameBeyond {i : Instr} {m : Nat} (hi : minPixels i = some m) {s : State}
    (hs : s.ready m) : sameBeyond s.seqLen s (commandBody i s) := by
  cases i <;> simp only [minPixels, Option.some.injEq, reduceCtorEq] at hi <;> subst hi
  · exact maskPixels_sameBeyond s
  · exact permutePixels_sameBeyond s
  · exact unpermutePixels_sameBeyond s
  · exact embedKey_sameBeyond s hs.2.2
  · exact fun _ _ => rfl
  · exact encryptPixels_sameBeyond hs.2.2
  · exact decryptPixels_sameBeyond s

end Sys2Proof.Machine
end

