-- ==== Sys2Proof/Laws/PerInstr.lean ====
section
/-! SUPPORT. Facts about every command as syntax, one lemma per constructor. -/

namespace Sys2Proof.Laws

/-- The word of a command has the fields 0 and its `OP` value, and those fields pass the check
(30_encoding.md R50, R52). -/
def EncodedFields.Statement (i : Instr) : Prop :=
  CmdFields.ofWord (encode i) = { rsv := 0, op := i.opcode } ∧
  (CmdFields.ofWord (encode i)).wf = true ∧ i.wf = true

theorem EncodedFields.nop : EncodedFields.Statement .nop := ⟨rfl, rfl, rfl⟩
theorem EncodedFields.mask : EncodedFields.Statement .mask := ⟨rfl, rfl, rfl⟩
theorem EncodedFields.permute : EncodedFields.Statement .permute := ⟨rfl, rfl, rfl⟩
theorem EncodedFields.unpermute : EncodedFields.Statement .unpermute := ⟨rfl, rfl, rfl⟩
theorem EncodedFields.embed : EncodedFields.Statement .embed := ⟨rfl, rfl, rfl⟩
theorem EncodedFields.extract : EncodedFields.Statement .extract := ⟨rfl, rfl, rfl⟩
theorem EncodedFields.genkey : EncodedFields.Statement .genkey := ⟨rfl, rfl, rfl⟩
theorem EncodedFields.encrypt : EncodedFields.Statement .encrypt := ⟨rfl, rfl, rfl⟩
theorem EncodedFields.decrypt : EncodedFields.Statement .decrypt := ⟨rfl, rfl, rfl⟩
theorem EncodedFields.clrf : EncodedFields.Statement .clrf := ⟨rfl, rfl, rfl⟩

end Sys2Proof.Laws
end

