-- ==== Sys2Proof/Laws/Port.lean ====
section
/-! SUPPORT. The address map, the transactions and the step. -/

namespace Sys2Proof.Machine

theorem byteOffset_portAddr {off : Nat} (h4 : off % 4 = 0) (h : off < 2 ^ 27) :
    byteOffset (portAddr off) = off := by
  rw [byteOffset, portAddr, BitVec.toNat_ofNat, Nat.mod_eq_of_lt (by omega)]
  omega

theorem byteOffset_lt (a : PortAddr) : byteOffset a < 2 ^ 27 := by
  have := a.isLt
  rw [byteOffset]
  omega

theorem byteOffset_inj {a b : PortAddr} (h : byteOffset a = byteOffset b) : a = b := by
  simp only [byteOffset] at h
  exact BitVec.eq_of_toNat_eq (by omega)

/-- The address map by offsets (20_memory.md R31). -/
theorem target_of_reg {n : Nat} {a : PortAddr} {r : Reg} (h : byteOffset a = regOffset r) :
    target n a = .reg r := by
  cases r <;> simp [target, h, regOffset]

theorem target_of_pix {n : Nat} {a : PortAddr} {i : Nat} (hi : i < n)
    (h : byteOffset a = pixBase + 4 * i) : target n a = .pix i := by
  have hb : pixBase = 0x04000000 := rfl
  simp only [target, h, regOffset]
  rw [if_neg (by omega), if_neg (by omega), if_neg (by omega), if_neg (by omega), if_neg (by omega),
    if_neg (by omega), if_pos (by omega)]
  congr 1
  omega

theorem target_of_neither {n : Nat} {a : PortAddr} (hr : ∀ r, byteOffset a ≠ regOffset r)
    (hp : ∀ i, i < n → byteOffset a ≠ pixBase + 4 * i) : target n a = .unmapped := by
  have h4 : byteOffset a % 4 = 0 := by rw [byteOffset]; omega
  have hb : pixBase = 0x04000000 := rfl
  simp only [target]
  rw [if_neg (hr _), if_neg (hr _), if_neg (hr _), if_neg (hr _), if_neg (hr _), if_neg (hr _), if_neg]
  intro h
  exact hp ((byteOffset a - pixBase) / 4) (by omega) (by omega)

/-- Everything an offset can be, said once. -/
theorem target_cases (n : Nat) (a : PortAddr) :
    (∃ r, byteOffset a = regOffset r ∧ target n a = .reg r) ∨
    (∃ i, i < n ∧ byteOffset a = pixBase + 4 * i ∧ target n a = .pix i) ∨
    ((∀ r, byteOffset a ≠ regOffset r) ∧ (∀ i, i < n → byteOffset a ≠ pixBase + 4 * i) ∧
      target n a = .unmapped) := by
  by_cases hr : ∃ r, byteOffset a = regOffset r
  · obtain ⟨r, h⟩ := hr
    exact .inl ⟨r, h, target_of_reg h⟩
  · by_cases hp : ∃ i, i < n ∧ byteOffset a = pixBase + 4 * i
    · obtain ⟨i, hi, h⟩ := hp
      exact .inr (.inl ⟨i, hi, h, target_of_pix hi h⟩)
    · have hr' := fun r h => hr ⟨r, h⟩
      have hp' := fun i hi h => hp ⟨i, hi, h⟩
      exact .inr (.inr ⟨hr', hp', target_of_neither hr' hp'⟩)

theorem target_pix_lt {n : Nat} {a : PortAddr} {i : Nat} (h : target n a = .pix i) : i < n := by
  rcases target_cases n a with ⟨r, -, e⟩ | ⟨j, hj, -, e⟩ | ⟨-, -, e⟩ <;> rw [e] at h <;>
    simp_all

theorem target_commandWrite (n : Nat) : target n (portAddr (regOffset .cmd)) = .reg .cmd :=
  target_of_reg (byteOffset_portAddr rfl (by decide))

/-! ### the step -/

theorem step_idle {s : State} (h : s.pending = []) : step s = .next s := by
  simp only [step, performNext, h]

theorem step_event {s : State} {e : HostEvent} {rest : List HostEvent} (h : s.pending = e :: rest) :
    step s = hostEvent e { s with pending := rest } := by
  simp only [step, performNext, h]

theorem respond_next (r : Response) (s : State) : respond r (.next s) = .next { s with resp := some r } := rfl

theorem hostEvent_command (w : Word) (s : State) :
    hostEvent (commandWrite w) s = respond .okWrite (dispatch w s) := by
  simp only [hostEvent, commandWrite, transact, writeResponse, memWrite, target_commandWrite]
  rfl

theorem dispatch_ok {w : Word} {i : Instr} (h : decode w = .ok i) (s : State) :
    dispatch w s = exec i s := by
  simp only [dispatch, h]

theorem dispatch_error {w : Word} {e : DecodeReject} (h : decode w = .error e) (s : State) :
    dispatch w s = .next (unlessLatched s (raise .illegalCommand w)) := by
  simp only [dispatch, h]

theorem dispatch_answers (w : Word) (s : State) : ∃ t, dispatch w s = .next t := by
  cases h : decode w with
  | ok i => exact dispatch_ok h s ▸ exec_answers i s
  | error e => exact ⟨_, dispatch_error h s⟩

/-- Everything a write does, said once. -/
theorem memWrite_cases (a : PortAddr) (v : Word) (s : State) :
    (target s.nmax a = .reg .cmd ∧ memWrite a v s = dispatch v s) ∨
    (target s.nmax a = .reg .key ∧ memWrite a v s = .next { s with key := v.setWidth 8 }) ∨
    (target s.nmax a = .reg .npix ∧ memWrite a v s = .next { s with npix := v }) ∨
    (∃ i, i < s.nmax ∧ target s.nmax a = .pix i ∧
      memWrite a v s = .next (s.setPixel i (v.setWidth 24))) ∨
    ((target s.nmax a = .reg .status ∨ target s.nmax a = .reg .cap ∨ target s.nmax a = .reg .fcmd ∨
      target s.nmax a = .unmapped) ∧ memWrite a v s = .next s) := by
  cases h : target s.nmax a with
  | reg r => cases r <;> simp [memWrite, h]
  | pix i => exact .inr (.inr (.inr (.inl ⟨i, target_pix_lt h, rfl, by simp only [memWrite, h]⟩)))
  | unmapped => simp [memWrite, h]

theorem memWrite_answers (a : PortAddr) (v : Word) (s : State) : ∃ t, memWrite a v s = .next t := by
  rcases memWrite_cases a v s with ⟨-, h⟩ | ⟨-, h⟩ | ⟨-, h⟩ | ⟨i, -, -, h⟩ | ⟨-, h⟩
  · exact h ▸ dispatch_answers v s
  all_goals exact ⟨_, h⟩

/-- Everything one event can do, said once. -/
theorem hostEvent_cases (e : HostEvent) (s : State) :
    (∃ a, e = .tx (.read a) ∧ hostEvent e s = .next { s with resp := some (readResponse a s) }) ∨
    (∃ a v t, e = .tx (.write a v) ∧ memWrite a v s = .next t ∧
      hostEvent e s = .next { t with resp := some (writeResponse a s) }) ∨
    (∃ c, e = .reset c ∧ hostEvent e s = .next (resetEngine s)) := by
  cases e with
  | reset c => exact .inr (.inr ⟨c, rfl, rfl⟩)
  | tx t =>
    cases t with
    | read a => exact .inl ⟨a, rfl, rfl⟩
    | write a v =>
      obtain ⟨t, h⟩ := memWrite_answers a v s
      refine .inr (.inl ⟨a, v, t, rfl, h, ?_⟩)
      simp only [hostEvent, transact, h]
      rfl

end Sys2Proof.Machine
end

