-- ==== Sys2Proof/Tests/Slice0.lean ====
section
/-! SUPPORT. The model's own tests: the checks refuse ill-formed terms, words decode, single steps give the
spec's vectors (95_test_vectors.md), and every statement's hypotheses are met by a concrete state. -/

namespace Sys2Proof.Machine

/-! ### helpers -/

/-- The memory that holds the given pixels from index `i` on. -/
def pixelsFrom : Nat → List Pixel → Memory
  | _, [] => []
  | i, p :: ps =>
    (chanAddr i .red, pixelByte p 0) :: (chanAddr i .green, pixelByte p 1) ::
      (chanAddr i .blue, pixelByte p 2) :: pixelsFrom (i + 1) ps

/-- A state with a key, a length and pixels; all else as after reset. -/
def small (k : Byte) (n : Word) (ps : List Pixel) : State :=
  { State.reset with key := k, npix := n, mem := pixelsFrom 0 ps }

/-- A state with a latched `InsufficientPixels` of `ENCRYPT` (T73). -/
def latched : State := { small 0x33 4 [] with fault := true, errcode := 1, fcmd := 0x0000_0007 }

/-- What a test looks at: `KEY`, `STATUS`, `FCMD` and the first `m` pixels. -/
def seen (m : Nat) : Result → Option (Byte × Word × Word × List Pixel)
  | .next s => some (s.key, s.status, s.fcmd, (List.range m).map s.pixel)
  | _ => none

/-- The response after one step on one host line. -/
def answer (s : State) (l : HostLine) : Option Response :=
  match step (s.withProgram [l]) with
  | .next t => t.resp
  | _ => none

/-! ### the checks refuse ill-formed terms -/

theorem test_wf_refuses_reserved_bits : CmdFields.wf { rsv := 1, op := 0x01 } = false := by decide
theorem test_wf_refuses_undefined_op : CmdFields.wf { rsv := 0, op := 0x0A } = false := by decide
theorem test_wf_accepts_last_op : CmdFields.wf { rsv := 0, op := 0x09 } = true := by decide
theorem test_wf_refuses_pixel_index : HostLine.wf (.wrpix (2 ^ 24) 0) = false := by decide
theorem test_wf_refuses_read_index : HostLine.wf (.rdpix (2 ^ 24)) = false := by decide
theorem test_wf_accepts_last_pixel : HostLine.wf (.rdpix (2 ^ 24 - 1)) = true := by decide
theorem test_wf_refuses_load_past_end : Pseudo.wf (.load (2 ^ 24 - 1) [0, 0]) = false := by decide

/-! ### decoding, from words written out from the encoding table (30_encoding.md R50, R52, R54) -/

theorem test_decode_nop : decode 0b00000000000000000000000000000000 = .ok .nop := rfl
theorem test_decode_mask : decode 0b00000000000000000000000000000001 = .ok .mask := rfl
theorem test_decode_permute : decode 0b00000000000000000000000000000010 = .ok .permute := rfl
theorem test_decode_unpermute : decode 0b00000000000000000000000000000011 = .ok .unpermute := rfl
theorem test_decode_embed : decode 0b00000000000000000000000000000100 = .ok .embed := rfl
theorem test_decode_extract : decode 0b00000000000000000000000000000101 = .ok .extract := rfl
theorem test_decode_genkey : decode 0b00000000000000000000000000000110 = .ok .genkey := rfl
theorem test_decode_encrypt : decode 0b00000000000000000000000000000111 = .ok .encrypt := rfl
theorem test_decode_decrypt : decode 0b00000000000000000000000000001000 = .ok .decrypt := rfl
theorem test_decode_clrf : decode 0b00000000000000000000000000001001 = .ok .clrf := rfl
theorem test_decode_refuses_op_0A : decode 0x0000_000A = .error .undefinedOp := rfl
theorem test_decode_refuses_reserved : decode 0x8000_0001 = .error .reservedBits := rfl
theorem test_decodeTableWord : (List.range 12).map (decodeTableWord 32) =
    [some .nop, some .mask, some .permute, some .unpermute, some .embed, some .extract, some .genkey,
      some .encrypt, some .decrypt, some .clrf, none, none] := by decide

/-! ### one step (95_test_vectors.md) -/

/-- T20. -/
theorem test_mask : seen 4 (exec .mask (small 0x05 3 [0xFF0000, 0x123456, 0x000000, 0xAABBCC])) =
    some (0x05, 0, 0, [0xFA0505, 0x173153, 0x050505, 0xAABBCC]) := by decide

/-- T25. -/
theorem test_mask_badLength : seen 1 (exec .mask (small 0x5A 65537 [0xFF0000])) =
    some (0x5A, 0x201, 1, [0xFF0000]) := by decide

/-- T42. -/
theorem test_permute : seen 5 (exec .permute (small 5 4 [0xA, 0xB, 0xC, 0xD, 0xE])) =
    some (5, 0, 0, [0xC, 0xB, 0xD, 0xA, 0xE]) := by decide

/-- T46: key 0 is not the identity. -/
theorem test_permute_key_zero :
    seen 9 (exec .permute (small 0 9 ((List.range 9).map fun i => BitVec.ofNat 24 (0x100 + i)))) =
    some (0, 0, 0, [0x100, 0x108, 0x104, 0x107, 0x105, 0x101, 0x103, 0x106, 0x102]) := by decide

/-- T45. -/
theorem test_unpermute :
    seen 9 (exec .unpermute (small 5 9 ((List.range 9).map fun i => BitVec.ofNat 24 (0x100 + i)))) =
    some (5, 0, 0, [0x105, 0x100, 0x104, 0x107, 0x102, 0x103, 0x106, 0x108, 0x101]) := by decide

/-- T31. -/
theorem test_embed : seen 8 (exec .embed (small 0xA6 8 (List.replicate 8 0x0102FF))) =
    some (0xA6, 0, 0, [0x0102FF, 0x0102FE, 0x0102FF, 0x0102FE, 0x0102FE, 0x0102FF, 0x0102FF, 0x0102FE]) := by
  decide

/-- T79: `BadLength` outranks `InsufficientPixels`. -/
theorem test_embed_small_capacity : seen 0 (exec .embed { small 0 5 [] with cap := 4 }) =
    some (0, 0x201, 4, []) := by decide

/-- T38. -/
theorem test_extract :
    seen 0 (exec .extract (small 0x77 8 ((List.range 8).map fun i => BitVec.ofNat 24 (0xFFFF01 + i)))) =
    some (0xAA, 0, 0, []) := by decide

/-- T36. -/
theorem test_extract_short : seen 0 (exec .extract (small 0xFF 7 [])) = some (0xFF, 0x101, 5, []) := by
  decide

/-- T67: no key is drawn. -/
theorem test_encrypt_short : exec .encrypt (small 0x33 4 []) =
    .next { small 0x33 4 [] with fault := true, errcode := 1, fcmd := 0x0000_0007 } := rfl

/-- T60a: the stages after the draw, on the key 5. -/
theorem test_encrypt_stages : seen 10 (runCommands [.mask, .permute, .embed] (small 5 9
      [0x102030, 0x112131, 0x122232, 0x132333, 0x142434, 0x152535, 0x162636, 0x172737, 0x182838, 0x777777])) =
    some (5, 0, 0, [0x142434, 0x1D2D3C, 0x112130, 0x102030, 0x172736, 0x152535, 0x132332, 0x162637, 0x122232,
      0x777777]) := by decide

/-- T61. -/
theorem test_decrypt : seen 10 (exec .decrypt (small 0x99 9
      [0x142434, 0x1D2D3C, 0x112130, 0x102030, 0x172736, 0x152535, 0x132332, 0x162637, 0x122232, 0x777777])) =
    some (5, 0, 0, [0x102030, 0x112131, 0x122233, 0x132332, 0x142435, 0x152535, 0x162637, 0x172737, 0x182839,
      0x777777]) := by decide

/-- T63: extracted key 0. -/
theorem test_decrypt_key_zero : seen 9 (exec .decrypt (small 0x99 9
      [0x000000, 0x010204, 0x020408, 0x03060C, 0x040810, 0x050A14, 0x060C18, 0x070E1C, 0x081020])) =
    some (0, 0, 0, [0x000000, 0x050A14, 0x081020, 0x060C18, 0x020408, 0x040810, 0x070E1C, 0x03060C, 0x010204]) := by
  decide

/-- T59, for every draw: `GENKEY` takes one. -/
theorem test_genkey : exec .genkey (small 7 0 []) =
    .next { small 7 0 [] with key := keyDraw 0, draws := 1 } := rfl

/-- T76. -/
theorem test_clrf : exec .clrf latched = .next (small 0x33 4 []) := rfl

/-- T81. -/
theorem test_nop : exec .nop (small 0x33 4 []) = .next (small 0x33 4 []) := rfl

/-- T73 to T75: everything but `CLRF` is ignored while a fault is latched. -/
theorem test_latched_ignores : ([0x0000_0001, 0xFFFF_FFFF, 0x0000_0109].map fun w => seen 0 (dispatch w latched)) =
    List.replicate 3 (some (0x33, 0x101, 7, [])) := by decide

/-- T78: `IllegalCommand` outranks `BadLength`. -/
theorem test_illegal : seen 0 (dispatch 0x0000_000B (small 0 65537 [])) = some (0, 0x301, 0xB, []) := by
  decide

/-- T40: the draws of `GenPerm(5, 9)` and its result. -/
theorem test_genPerm : genNext (genSeed 5) = 0x5118_E6BC ∧ genPerm 5 9 = [1, 8, 4, 5, 2, 0, 6, 3, 7] := by
  decide

/-! ### the port -/

/-- T1. -/
theorem test_reset_registers : ([.cmd, .status, .key, .npix, .cap, .fcmd].map fun r => answer State.reset (.rd r)) =
    [some (.okRead 0), some (.okRead 0), some (.okRead 0), some (.okRead 0), some (.okRead 0x0001_0000),
      some (.okRead 0)] := by decide

/-- T6, T8: the pixel aperture and its end. -/
theorem test_aperture : lineTx (.wrpix 3 0xAB12_3456) = .write (portAddr 0x0400_000C) 0xAB12_3456 ∧
    target 65536 (portAddr 0x0403_FFFC) = .pix 65535 ∧ target 65536 (portAddr 0x0404_0000) = .unmapped ∧
    answer (small 0 0 [0, 0, 0, 0x123456]) (.rdpix 3) = some (.okRead 0x0012_3456) := by decide

/-- T7. -/
theorem test_unmapped_is_err : transact (.write (portAddr 0x18) 1) State.reset =
    .next { State.reset with resp := some .err } := rfl

/-- 30_encoding.md R58: the expansions. -/
theorem test_pseudo : (expandPseudo (.load 7 [1, 2]) = [.wrpix 7 1, .wrpix 8 2]) ∧
    (expandPseudo .decrypts).map lineTx = [.write 0 0x5, .write 0 0x3, .write 0 0x1] := by decide

/-- The command placed by `withFetchWord` runs as the next step (log 1). -/
theorem test_withFetchWord : step (State.reset.withFetchWord 32 0x4) =
    .next { State.reset with fault := true, errcode := 1, fcmd := 4, resp := some .okWrite } := rfl

theorem test_reset_memory_wf : State.reset.mem.wf := by decide

/-! ### every statement's hypotheses are met -/

/-- A length of 8 at key 5; ready for every command. -/
def eight : State := small 5 8 []

theorem eight_ready : eight.ready 8 := ⟨by decide, by decide, by decide⟩

theorem test_witness_DecodeInvertsEncode : Instr.wf .mask = true := rfl

/-- Both sides of each bound of R54, and both states of the fault. -/
theorem test_witness_IllegalWordsRaiseOrAreIgnored :
    (BitVec.extractLsb' 8 24 (0x0000_0100 : Word) ≠ 0) ∧ (BitVec.extractLsb' 8 24 (0x8000_0001 : Word) ≠ 0) ∧
    0x0A ≤ (BitVec.extractLsb' 0 8 (0x0000_000A : Word)).toNat ∧
    0x0A ≤ (BitVec.extractLsb' 0 8 (0x0000_00FF : Word)).toNat ∧ eight.fault = false ∧ latched.fault = true := by
  decide

/-- A state whose next event is the given one. -/
def before (e : HostEvent) : State := { eight with pending := [e] }

/-- For DispatchFollowsTheRule, StepRunsTheDecodedCommand, EveryStepAnswersAndEveryCommandIsAcknowledged and
the first clause of HostWritesHaveTheMappedEffect. -/
theorem test_witness_command_write :
    (before (.tx (.write 0 0x3))).pending = .tx (.write 0 0x3) :: [] ∧ byteOffset 0 = 0x00 ∧
    decode 0x3 = .ok .unpermute ∧ Instr.wf .unpermute = true ∧
    (before (.tx (.read 0))).pending = .tx (.read 0) :: [] := ⟨rfl, rfl, rfl, rfl, rfl⟩

theorem test_witness_IdleEngineStaysAsItIs : eight.pending = [] := rfl

/-- For HostReadsReturnTheMappedWord, HostWritesHaveTheMappedEffect, HostWritesButCmdAreIdempotent,
CapIsAConstant and LatchedFaultIgnoresCommands: every clause of the map, at the ends of its range. -/
theorem test_witness_port_clauses :
    (before (.tx (.read (portAddr 0x10)))).pending = .tx (.read (portAddr 0x10)) :: [] ∧
    (before (.tx (.write (portAddr 0x10) 5))).pending = .tx (.write (portAddr 0x10) 5) :: [] ∧
    ([0x00, 0x04, 0x08, 0x0C, 0x10, 0x14].map fun off => byteOffset (portAddr off)) =
      [0x00, 0x04, 0x08, 0x0C, 0x10, 0x14] ∧
    0 < eight.nmax ∧ byteOffset (portAddr 0x0400_0000) = 0x0400_0000 + 4 * 0 ∧
    65535 < eight.nmax ∧ byteOffset (portAddr 0x0403_FFFC) = 0x0400_0000 + 4 * 65535 := by decide

/-- The unmapped offsets at the ends of the two holes meet the last clause of the map. -/
theorem test_witness_port_unmapped : ∀ off ∈ [0x18, 0x03FF_FFFC, 0x0404_0000, 0x07FF_FFFC],
    byteOffset (portAddr off) ∉ [0x00, 0x04, 0x08, 0x0C, 0x10, 0x14] ∧
    ∀ i, i < eight.nmax → byteOffset (portAddr off) ≠ 0x0400_0000 + 4 * i := by
  have hn : eight.nmax = 65536 := by decide
  intro off hoff
  simp only [List.mem_cons, List.not_mem_nil, or_false] at hoff
  rw [hn]
  rcases hoff with rfl | rfl | rfl | rfl <;>
  · rw [byteOffset_portAddr (by decide) (by decide)]
    refine ⟨by decide, fun i hi => by omega⟩

theorem test_witness_ChannelsReadBackAsWritten : (1 : Nat) ≠ 0 := by decide

theorem test_witness_ResetEventLeavesTheResetRegisters :
    ((before (.reset none)).pending = .reset none :: []) ∧
    (before (.reset (some (.write 0 7)))).pending = .reset (some (.write 0 7)) :: [] := ⟨rfl, rfl⟩

/-- The state meets the invariant, and its step runs `EMBED`. -/
theorem test_witness_EveryStepKeepsTheInvariant :
    (before (commandWrite 0x4)).Inv ∧ ∃ t, step (before (commandWrite 0x4)) = .next t := by
  refine ⟨⟨⟨by decide, by decide⟩, ⟨by decide, by decide⟩, .inl (by decide), ?_, Memory.wf_nil, by
    simp [before, eight, small, pixelsFrom]⟩, _, rfl⟩
  exact ⟨by decide, by decide, fun h => absurd h (by decide)⟩

/-- A latched state meets the invariant too. -/
theorem test_witness_Inv_latched : latched.Inv := by
  refine ⟨⟨by decide, by decide⟩, ⟨by decide, by decide⟩, .inr (.inl (by decide)), ?_, Memory.wf_nil, by
    simp [latched, small, pixelsFrom]⟩
  exact ⟨by decide, by decide, fun h => absurd h (by decide)⟩

theorem test_witness_FaultRecordStaysConsistent :
    ((latched.fault = true ↔ latched.errcode ≠ 0) ∧ (latched.fault = false → latched.fcmd = 0)) ∧
    ∃ t, step latched = .next t := ⟨by decide, _, rfl⟩

/-- A change by an illegal word, a change by `CLRF`, a change by reset. -/
theorem test_witness_OnlyCommandsAndResetChangeTheFaultRecord :
    (∃ t, step (before (commandWrite 0x42)) = .next t ∧ t.fault ≠ (before (commandWrite 0x42)).fault) ∧
    (∃ t, step { latched with pending := [commandWrite 0x9] } = .next t ∧ t.errcode ≠ latched.errcode) ∧
    (∃ t, step { latched with pending := [.reset none] } = .next t ∧ t.fcmd ≠ latched.fcmd) :=
  ⟨⟨_, rfl, by decide⟩, ⟨_, rfl, by decide⟩, ⟨_, rfl, by decide⟩⟩

/-- For LengthCheckFollowsTheRule, CommandsRaiseExactlyTheListedFaults and the fault clauses of the commands:
each clause at the ends of its range. -/
theorem test_witness_lengths :
    (small 5 65537 []).nmax < (small 5 65537 []).npix.toNat ∧ (small 5 65536 []).npix.toNat ≤ (small 5 65536 []).nmax ∧
    (small 5 7 []).npix.toNat ≤ (small 5 7 []).nmax ∧ (small 5 7 []).npix.toNat < 8 ∧
    (small 5 0 []).npix.toNat < 8 ∧ 8 ≤ eight.npix.toNat ∧ eight.npix.toNat ≤ eight.nmax ∧ eight.fault = false ∧
    (small 5 7 []).fault = false ∧ (small 5 65537 []).fault = false ∧ State.nmax { eight with cap := 7 } < 8 := by
  decide

theorem test_witness_CommandsRaiseExactlyTheListedFaults :
    Instr.mask ∈ [Instr.mask, .permute, .unpermute, .embed, .extract, .encrypt, .decrypt] ∧
    Instr.decrypt ∈ [Instr.embed, .extract, .encrypt, .decrypt] ∧
    Instr.unpermute ∈ [Instr.mask, .permute, .unpermute] ∧ Instr.clrf ∈ [Instr.nop, .genkey, .clrf] := by decide

/-- Each of the three clauses: a command write, a write to another offset, a read of another offset. -/
theorem test_witness_LatchedFaultIgnoresCommands : latched.fault = true ∧ (0x0000_0109 : Word) ≠ 0x0000_0009 ∧
    State.pending { latched with pending := [.tx (.write 0 0x109)] } = .tx (.write 0 0x109) :: [] ∧
    byteOffset 0 = 0x00 ∧ byteOffset (portAddr 0x04) ≠ 0x00 ∧ byteOffset (portAddr 0x00) ≠ 0x04 := by decide

theorem test_witness_OneReadOfStatusCoversASequence :
    Instr.clrf ∉ [Instr.mask] ++ [Instr.embed] ∧ latched.fault = true ∧
    ∃ t, runCommands ([.mask] ++ [.embed]) eight = .next t ∧ t.fault = false := ⟨by decide, rfl, _, rfl, rfl⟩

theorem test_witness_ClrfReturnsFromAFault : eight.faultRecordLegal ∧ eight.fault = false ∧ latched.fault = true ∧
    BitVec.extractLsb' 0 8 (0x0000_0109 : Word) = 0x09 ∧ BitVec.extractLsb' 8 24 (0x0000_0109 : Word) ≠ 0 :=
  ⟨⟨by decide, by decide⟩, rfl, rfl, by decide, by decide⟩

/-- For MaskXorsEveryChannelOfTheSequence, MaskTwiceRestoresEveryPixel, PermuteGathersThroughThePermutation,
UnpermuteScattersThroughThePermutation, UnpermuteUndoesPermute, EmbedWritesTheKeyIntoTheSlots,
ExtractReadsTheSlotsIntoKey, EncryptMasksPermutesAndEmbeds, DecryptExtractsUnpermutesAndUnmasks and
GenkeyLoadsADrawnKey: the success clause; `test_witness_lengths` has the fault clauses. -/
theorem test_witness_commands : eight.fault = false ∧ eight.npix.toNat ≤ eight.nmax ∧ 8 ≤ eight.npix.toNat ∧
    (small 5 1 []).npix.toNat ≤ 1 ∧ (7 : Nat) < eight.npix.toNat ∧ 3 * eight.npix.toNat ≤ 24 := by decide

theorem test_witness_MaskCommutesWithTheShuffleOnly :
    eight.ready 0 ∧ eight.ready 8 ∧ eight.key.getLsbD 0 = true ∧
    ((Instr.permute = .permute ∨ Instr.permute = .unpermute) ∧
      (Instr.unpermute = .permute ∨ Instr.unpermute = .unpermute)) :=
  ⟨⟨by decide, by decide, by decide⟩, eight_ready, by decide, by decide⟩

theorem test_witness_SeedsAreNonzeroAndDistinct : genSeed 0xFF = genSeed 0xFF := rfl

theorem test_witness_PermutationIsABijection : (8 : Nat) < 9 ∧ (genPerm 5 9).getD 1 0 = 8 := by decide

/-- For EmbeddedKeyIsExtractedAgain: the state after `EMBED` is itself a state that keeps the slot bits. -/
theorem test_witness_EmbeddedKeyIsExtractedAgain : eight.ready 8 ∧
    ∃ t, exec .embed eight = .next t ∧ t.ready 8 ∧ ∀ i, i < 8 → t.slotBit i = t.slotBit i :=
  ⟨eight_ready, _, rfl, ⟨by decide, by decide, by decide⟩, fun _ _ => rfl⟩

/-- For EmbeddingIsLocal, EncryptEqualsItsStages, OldKeyIsOverwrittenUnseen and the first half of
DecryptEqualsItsStages. -/
theorem test_witness_ready : eight.ready 8 ∧ Instr.encrypt ∈ [Instr.extract, .genkey, .encrypt, .decrypt] :=
  ⟨eight_ready, by decide⟩

theorem test_witness_EightPixelsSufficeAndSevenDoNot :
    (Instr.embed = .embed ∨ Instr.embed = .extract) ∧ eight.npix = 8 ∧ eight.fault = false ∧
    eight.npix.toNat ≤ eight.nmax ∧ (small 5 7 []).npix.toNat ≤ 7 ∧ (small 5 7 []).npix.toNat ≤ (small 5 7 []).nmax := by
  decide

theorem test_witness_DecryptEqualsItsStages : (small 5 7 []).fault = false ∧ (small 5 7 []).npix.toNat < 8 ∧
    (small 5 65537 []).nmax < (small 5 65537 []).npix.toNat := by decide

/-- The state after either encryption and a write of the host to the first pixel beyond the sequence meets what
the round trip asks of the state in between, and so does the one without that write. -/
theorem test_witness_RoundTripRestoresAllButEightBits : eight.ready 8 ∧ eight.npix.toNat = 8 ∧
    (∃ t, exec .encrypt eight = .next t ∧ (t.setByte 24 0x5A).fault = false ∧
      (t.setByte 24 0x5A).npix = t.npix ∧ (t.setByte 24 0x5A).cap = t.cap ∧
      ∀ a, a < 3 * 8 → (t.setByte 24 0x5A).byteAt a = t.byteAt a) ∧
    ∃ t, runCommands [.mask, .permute, .embed] eight = .next t ∧ t.fault = false ∧
      ∀ a, a < 3 * 8 → t.byteAt a = t.byteAt a :=
  ⟨eight_ready, rfl, ⟨_, rfl, rfl, rfl, rfl, fun _ h => by
    rw [State.byteAt_setByte, if_neg (by omega)]⟩,
    ⟨_, rfl, rfl, fun _ _ => rfl⟩⟩

/-- With slots of zeros: eight black pixels. -/
theorem test_witness_DecryptAcceptsEveryKey : (small 5 8 (List.replicate 8 0)).ready 8 ∧
    ∀ j, j < 8 → (small 5 8 (List.replicate 8 0)).slotBit j = false :=
  ⟨⟨by decide, by decide, by decide⟩, by decide⟩

theorem test_witness_ShortSequenceIsMaskedThenFaultsAndRecovers : (small 5 4 []).fault = false ∧
    (small 5 4 []).npix.toNat ≤ (small 5 4 []).nmax ∧ (small 5 4 []).npix.toNat < 8 := by decide

/-- A command that faults, one that does not (with a bit of a slot byte and a byte beside it that it must keep),
one that writes no pixel, and one ignored under a latched fault. -/
theorem test_witness_CommandsWriteOnlyWhatTheTableLists :
    (∃ t, exec .embed eight = .next t ∧ t.fault = false ∧ Instr.embed ≠ .clrf ∧ (1 : Nat) ≠ 0 ∧
      (∀ n, n < 8 → chanAddr 0 .green ≠ chanAddr n .blue) ∧ 3 * eight.npix.toNat ≤ 24 ∧
      Instr.embed ∉ [Instr.extract, .genkey, .encrypt, .decrypt] ∧ Instr.embed ∉ [Instr.genkey, .encrypt]) ∧
    (∃ t, exec .embed (small 5 7 []) = .next t ∧ t.fault = true ∧ (small 5 7 []).fault = false) ∧
    (∃ t, exec .extract eight = .next t ∧
      Instr.extract ∉ [Instr.mask, .permute, .unpermute, .embed, .encrypt, .decrypt]) ∧
    ∃ t, exec .genkey latched = .next t ∧ Instr.genkey ≠ .clrf ∧ latched.fault = true :=
  ⟨⟨_, rfl, rfl, by decide, by decide, by decide, by decide, by decide, by decide⟩, ⟨_, rfl, rfl, rfl⟩,
    ⟨_, rfl, by decide⟩, ⟨_, rfl, by decide, rfl⟩⟩

/-- Two states that differ beyond the sequence and agree below it. -/
theorem test_witness_CommandsDependOnTheSequenceAlone :
    AgreeBelow 0 (small 5 0 [0x123456]) (small 5 0 [0x654321]) ∧ small 5 0 [0x123456] ≠ small 5 0 [0x654321] ∧
    (small 5 0 [0x123456]).npix.toNat = 0 :=
  ⟨⟨rfl, rfl, rfl, rfl, rfl, rfl, rfl, fun _ h => absurd h (by omega)⟩, by decide, rfl⟩

theorem test_witness_EmptySequenceIsHarmless : State.reset.fault = false ∧ State.reset.npix = 0 ∧
    Instr.mask ∈ [Instr.mask, .permute, .unpermute] ∧ Instr.embed ∈ [Instr.embed, .extract, .encrypt, .decrypt] := by
  decide

end Sys2Proof.Machine
end

section
/-! PROOF. The scope's statements (00_scope.md): the idle engine, and the machine's invariant kept by every
event of the outside world. The invariant is followed up the layers of a step: the fault record's two
entries, the commands, `Dispatch(w)`, the port, the event. -/

namespace Sys2Proof.Machine

/-! ### what a latched cause says about `FCMD` -/

/-- The word can have raised the cause (60_exceptions.md R120): `State.fcmdMatchesCause` read cause by
cause, see `State.fcmdMatchesCause_iff`. -/
def Cause.RaisedBy : Cause → Word → Prop
  | .insufficientPixels, w => w ∈ [encode .embed, encode .extract, encode .encrypt, encode .decrypt]
  | .badLength, w => w ∈ [encode .mask, encode .permute, encode .unpermute, encode .embed, encode .extract,
      encode .encrypt, encode .decrypt]
  | .illegalCommand, w => ∀ i : Instr, w ≠ encode i

theorem State.fcmdMatchesCause_iff {s : State} :
    s.fcmdMatchesCause ↔ ∀ e : Cause, s.errcode = e.code → e.RaisedBy s.fcmd := by
  constructor
  · rintro ⟨hinsufficient, hbad, hillegal⟩ e
    cases e with
    | insufficientPixels => exact hinsufficient
    | badLength => exact hbad
    | illegalCommand => exact hillegal
  · exact fun h => ⟨h .insufficientPixels, h .badLength, h .illegalCommand⟩

theorem Cause.code_injective : Function.Injective Cause.code := by
  intro e e' h
  cases e <;> cases e' <;> revert h <;> decide

theorem Cause.code_ne_zero (e : Cause) : e.code ≠ 0 := by
  cases e <;> decide

theorem decode_encode (i : Instr) : decode (encode i) = .ok i := by
  cases i <;> rfl

/-- A word that the decoder rejects can raise `IllegalCommand` (60_exceptions.md R125). -/
theorem raisedBy_illegalCommand {w : Word} {r : DecodeReject} (h : decode w = .error r) :
    Cause.illegalCommand.RaisedBy w := by
  rintro i rfl
  rw [decode_encode] at h
  cases h

/-- Every command with an operand check can raise `BadLength` (60_exceptions.md R124). -/
theorem raisedBy_badLength {i : Instr} {m : Nat} (h : minPixels i = some m) :
    Cause.badLength.RaisedBy (encode i) := by
  have hi : i ∈ [.mask, .permute, .unpermute, .embed, .extract, .encrypt, .decrypt] := by
    cases i <;> simp [minPixels] at h ⊢
  exact List.mem_map_of_mem (f := encode) hi

/-- Every command that asks for at least one pixel can raise `InsufficientPixels`
(60_exceptions.md R123). -/
theorem raisedBy_insufficientPixels {i : Instr} {m : Nat} (h : minPixels i = some m) (hm : 0 < m) :
    Cause.insufficientPixels.RaisedBy (encode i) := by
  have hi : i ∈ [.embed, .extract, .encrypt, .decrypt] := by
    cases i <;> simp [minPixels] at h ⊢ <;> omega
  exact List.mem_map_of_mem (f := encode) hi

/-! ### the invariant and the fault record -/

/-- The invariant speaks of the fault record, `CAP` and the memory only. -/
theorem State.Inv.of_record_eq {s t : State} (h : s.Inv) (hfault : t.fault = s.fault)
    (herrcode : t.errcode = s.errcode) (hfcmd : t.fcmd = s.fcmd) (hcap : t.cap = s.cap)
    (hmem : t.memoryLegal) : t.Inv where
  capacity := by simpa only [State.capacityLegal, State.nmax, hcap] using h.capacity
  record := by simpa only [State.faultRecordLegal, hfault, herrcode, hfcmd] using h.record
  status := by simpa only [State.statusLegal, State.status, hfault, herrcode] using h.status
  cause := by simpa only [State.fcmdMatchesCause, herrcode, hfcmd] using h.cause
  memory := hmem

/-- No cause is latched: the capacity and the memory are all that is left to the invariant. -/
theorem State.Inv.of_clear {s : State} (hcap : s.capacityLegal) (hfault : s.fault = false)
    (herrcode : s.errcode = 0) (hfcmd : s.fcmd = 0) (hmem : s.memoryLegal) : s.Inv where
  capacity := hcap
  record := ⟨by simp [hfault, herrcode], fun _ => hfcmd⟩
  status := .inl (by rw [State.status, hfault, herrcode]; rfl)
  cause := State.fcmdMatchesCause_iff.2 fun e he => absurd (he.symm.trans herrcode) e.code_ne_zero
  memory := hmem

theorem clearFault_inv {s : State} (h : s.Inv) : (clearFault s).Inv :=
  .of_clear h.capacity rfl rfl rfl h.memory

/-- The register values of a reset meet the invariant with any legal capacity: no pixel is listed. -/
theorem resetEngine_inv {s : State} (h : s.Inv) : (resetEngine s).Inv :=
  .of_clear h.capacity rfl rfl rfl ⟨Memory.wf_nil, fun _ hc => absurd hc List.not_mem_nil⟩

theorem raise_statusLegal (e : Cause) (w : Word) (s : State) : (raise e w s).statusLegal := by
  rw [State.statusLegal, State.status, raise_fault, raise_errcode]
  cases e <;> decide

/-- Entry into a fault keeps the invariant when the word saved is one that can raise the cause. -/
theorem raise_inv {s : State} (h : s.Inv) {e : Cause} {w : Word} (hw : e.RaisedBy w) :
    (raise e w s).Inv where
  capacity := h.capacity
  record := ⟨iff_of_true rfl e.code_ne_zero, fun hf => absurd hf (by simp)⟩
  status := raise_statusLegal e w s
  cause := State.fcmdMatchesCause_iff.2 fun _ he => Cause.code_injective he ▸ hw
  memory := h.memory

/-! ### the invariant up the layers of a step -/

/-- A command that is neither ignored nor faulted keeps the fault record, so that its memory decides. -/
theorem commandBody_inv {i : Instr} (hi : i ≠ .clrf) {s : State} (h : s.Inv)
    (hmem : (commandBody i s).memoryLegal) : (commandBody i s).Inv :=
  have e := commandBody_same hi s
  h.of_record_eq e.fault e.errcode e.fcmd e.cap hmem

/-- The commands without an operand check do not touch the pixels. -/
theorem commandBody_memoryLegal_of_unchecked {i : Instr} (hi : minPixels i = none) {s : State}
    (h : s.memoryLegal) : (commandBody i s).memoryLegal := by
  cases i <;> simp only [minPixels, reduceCtorEq] at hi
  case nop => exact h
  case genkey => exact drawKey_memoryLegal h
  case clrf => exact h

theorem exec_inv {i : Instr} {s t : State} (h : s.Inv) (ht : exec i s = .next t) : t.Inv := by
  rcases exec_cases i s with ⟨-, e⟩ | ⟨-, -, e⟩ | ⟨hi, hm, -, e⟩ | ⟨m, hm, -, -, e⟩ |
      ⟨m, hm, -, -, hlt, e⟩ | ⟨m, hm, hready, e⟩ <;>
    obtain rfl := Host.Outcome.next.inj (e.symm.trans ht)
  · exact clearFault_inv h
  · exact h
  · exact commandBody_inv hi h (commandBody_memoryLegal_of_unchecked hm h.memory)
  · exact raise_inv h (raisedBy_badLength hm)
  · exact raise_inv h (raisedBy_insufficientPixels hm (by omega))
  · have hi : i ≠ .clrf := by rintro rfl; cases hm
    exact commandBody_inv hi h (commandBody_memoryLegal hm hready h.memory)

theorem dispatch_inv {w : Word} {s t : State} (h : s.Inv) (ht : dispatch w s = .next t) : t.Inv := by
  cases hw : decode w with
  | ok i => exact exec_inv h ((dispatch_ok hw s).symm.trans ht)
  | error r =>
    obtain rfl := Host.Outcome.next.inj ((dispatch_error hw s).symm.trans ht)
    cases hf : s.fault with
    | true => rwa [unlessLatched_latched hf]
    | false =>
      rw [unlessLatched_clear hf]
      exact raise_inv h (raisedBy_illegalCommand hw)

theorem memWrite_inv {a : PortAddr} {v : Word} {s t : State} (h : s.Inv)
    (ht : memWrite a v s = .next t) : t.Inv := by
  rcases memWrite_cases a v s with ⟨-, e⟩ | ⟨-, e⟩ | ⟨-, e⟩ | ⟨i, hi, -, e⟩ | ⟨-, e⟩ <;> rw [e] at ht
  · exact dispatch_inv h ht
  all_goals obtain rfl := Host.Outcome.next.inj ht
  · exact h.of_record_eq rfl rfl rfl rfl h.memory
  · exact h.of_record_eq rfl rfl rfl rfl h.memory
  · exact h.of_record_eq rfl rfl rfl rfl (State.memoryLegal_setPixel h.memory hi _)
  · exact h

theorem State.Inv.setResp {s : State} (h : s.Inv) (r : Option Response) : State.Inv { s with resp := r } :=
  h.of_record_eq rfl rfl rfl rfl h.memory

theorem State.Inv.setPending {s : State} (h : s.Inv) (l : List HostEvent) :
    State.Inv { s with pending := l } :=
  h.of_record_eq rfl rfl rfl rfl h.memory

theorem hostEvent_inv {e : HostEvent} {s t : State} (h : s.Inv) (ht : hostEvent e s = .next t) : t.Inv := by
  rcases hostEvent_cases e s with ⟨a, -, eq⟩ | ⟨a, v, u, -, hu, eq⟩ | ⟨c, -, eq⟩ <;>
    obtain rfl := Host.Outcome.next.inj (eq.symm.trans ht)
  · exact h.setResp _
  · exact (memWrite_inv h hu).setResp _
  · exact resetEngine_inv h

/-! ### the obligations -/

/-- Settles O17, by the layers of a step: the idle step, and the first pending event. -/
theorem everyStepKeepsTheInvariant : Obligations.EveryStepKeepsTheInvariant := by
  intro s t h ht
  cases hp : s.pending with
  | nil =>
    obtain rfl := Host.Outcome.next.inj ((step_idle hp).symm.trans ht)
    exact h
  | cons e rest => exact hostEvent_inv (h.setPending rest) ((step_event hp).symm.trans ht)

/-- Settles O7, by the equation of the step with no event pending. -/
theorem idleEngineStaysAsItIs : Obligations.IdleEngineStaysAsItIs :=
  fun _ => step_idle

end Sys2Proof.Machine
end

section
/-! PROOF. The state's statements (10_state.md): what a command answers and what it leaves alone, what it
depends on, and what one step does to the fault record and to `CAP`. The step's facts are followed down its
layers: the event, `Dispatch(w)`, the command. -/

namespace Sys2Proof.Machine

/-! ### decoding names the word -/

theorem CmdFields.toWord_ofWord (w : Word) : (CmdFields.ofWord w).toWord = w := by
  apply BitVec.eq_of_getLsbD_eq
  intro j hj
  rw [CmdFields.toWord, CmdFields.ofWord, BitVec.getLsbD_append]
  by_cases h : j < 8
  · simp [h]
  · simp [h, show j - 8 < 24 by omega, show 8 + (j - 8) = j by omega]

/-- An `OP` value that names a command is that command's (30_encoding.md R52). -/
theorem eq_opcode_of_instrOfOp {op : Byte} {i : Instr} (h : instrOfOp op = some i) : op = i.opcode := by
  unfold instrOfOp at h
  split at h <;> cases h <;> exact BitVec.eq_of_toNat_eq (by assumption)

/-- Only the command's own word decodes to it: the match is on all 32 bits (30_encoding.md R52). -/
theorem eq_encode_of_decode {w : Word} {i : Instr} (h : decode w = .ok i) : w = encode i := by
  simp only [decode] at h
  split at h
  · cases h
  next hrsv =>
    split at h <;> cases h
    next hop =>
      rw [← CmdFields.toWord_ofWord w, encode, ← eq_opcode_of_instrOfOp hop, ← not_not.1 hrsv]

/-! ### what a command answers, by its guard -/

/-- The command is neither ignored nor faulted: no fault is latched, and a datapath command passes its
check (60_exceptions.md R122, R126). -/
def State.admits (s : State) (i : Instr) : Prop :=
  s.fault = false ∧ ∀ m, minPixels i = some m → s.ready m

/-- The next state of a command: `CLRF` clears, a latched fault ignores, a failed check raises, and the
rest run. -/
theorem exec_next_cases {i : Instr} {s t : State} (h : exec i s = .next t) :
    (i = .clrf ∧ t = clearFault s) ∨
    (i ≠ .clrf ∧ s.fault = true ∧ t = s) ∨
    (i ≠ .clrf ∧ s.fault = false ∧ ∃ e, t = raise e (encode i) s) ∨
    (i ≠ .clrf ∧ s.admits i ∧ t = commandBody i s) := by
  have checked {m : Nat} (hm : minPixels i = some m) : i ≠ .clrf := by rintro rfl; cases hm
  rcases exec_cases i s with ⟨hi, e⟩ | ⟨hi, hf, e⟩ | ⟨hi, hm, hf, e⟩ | ⟨m, hm, hf, -, e⟩ |
      ⟨m, hm, hf, -, -, e⟩ | ⟨m, hm, hr, e⟩ <;>
    obtain rfl := Host.Outcome.next.inj (e.symm.trans h)
  · exact .inl ⟨hi, rfl⟩
  · exact .inr (.inl ⟨hi, hf, rfl⟩)
  · exact .inr (.inr (.inr ⟨hi, ⟨hf, by simp [hm]⟩, rfl⟩))
  · exact .inr (.inr (.inl ⟨checked hm, hf, _, rfl⟩))
  · exact .inr (.inr (.inl ⟨checked hm, hf, _, rfl⟩))
  · refine .inr (.inr (.inr ⟨checked hm, ⟨hr.1, fun m' hm' => ?_⟩, rfl⟩))
    rwa [← Option.some.inj (hm.symm.trans hm')]

/-- What neither the fault record's entry and return nor the command's body writes, the command leaves
alone. -/
theorem exec_preserves {α : Type} (f : State → α) {i : Instr} {s t : State} (h : exec i s = .next t)
    (hclear : f (clearFault s) = f s) (hraise : ∀ e w, f (raise e w s) = f s)
    (hbody : i ≠ .clrf → s.admits i → f (commandBody i s) = f s) : f t = f s := by
  rcases exec_next_cases h with ⟨-, rfl⟩ | ⟨-, -, rfl⟩ | ⟨-, -, e, rfl⟩ | ⟨hi, ha, rfl⟩
  · exact hclear
  · rfl
  · exact hraise e _
  · exact hbody hi ha

/-! ### what the bodies leave alone (10_state.md R21) -/

theorem commandBody_key {i : Instr} (hi : i ∉ [Instr.extract, .genkey, .encrypt, .decrypt]) (s : State) :
    (commandBody i s).key = s.key := by
  cases i with
  | nop | clrf => rfl
  | mask => exact (maskPixels_same s).key
  | permute => exact (permutePixels_same s).key
  | unpermute => exact (unpermutePixels_same s).key
  | embed => exact (embedKey_same s).key
  | extract | genkey | encrypt | decrypt => simp at hi

theorem commandBody_draws {i : Instr} (hi : i ∉ [Instr.genkey, .encrypt]) (s : State) :
    (commandBody i s).draws = s.draws := by
  cases i with
  | nop | clrf | extract => rfl
  | mask => exact (maskPixels_same s).draws
  | permute => exact (permutePixels_same s).draws
  | unpermute => exact (unpermutePixels_same s).draws
  | embed => exact (embedKey_same s).draws
  | decrypt => exact (decryptPixels_same s).draws
  | genkey | encrypt => simp at hi

theorem commandBody_byteAt {i : Instr}
    (hi : i ∉ [Instr.mask, .permute, .unpermute, .embed, .encrypt, .decrypt]) (s : State) (a : Nat) :
    (commandBody i s).byteAt a = s.byteAt a := by
  cases i with
  | nop | clrf | extract | genkey => rfl
  | mask | permute | unpermute | embed | encrypt | decrypt => simp at hi

theorem commandBody_byteAt_beyond {i : Instr} {s : State} (hs : s.admits i) {a : Nat}
    (ha : 3 * s.npix.toNat ≤ a) : (commandBody i s).byteAt a = s.byteAt a := by
  cases hm : minPixels i with
  | some m => exact commandBody_sameBeyond hm (hs.2 m hm) a ha
  | none =>
    refine commandBody_byteAt (fun hi => ?_) s a
    simp only [List.mem_cons, List.not_mem_nil, or_false] at hi
    rcases hi with rfl | rfl | rfl | rfl | rfl | rfl <;> cases hm

/-! ### what the commands leave alone (10_state.md R21; 20_memory.md R38) -/

theorem exec_cap {i : Instr} {s t : State} (h : exec i s = .next t) : t.cap = s.cap :=
  exec_preserves State.cap h rfl (fun _ _ => rfl) fun hi _ => (commandBody_same hi s).cap

theorem exec_sameBeyond {i : Instr} {s t : State} (h : exec i s = .next t) :
    sameBeyond s.npix.toNat s t := fun a ha =>
  exec_preserves (State.byteAt · a) h rfl (fun _ _ => rfl) fun _ hs => commandBody_byteAt_beyond hs ha

/-- `EMBED` writes bit 0 of the blue channels of the slots (40_keycodec.md R73). -/
theorem exec_embed_getLsbD {s t : State} (h : exec .embed s = .next t) {a j : Nat}
    (hj : j ≠ 0 ∨ ∀ n, n < 8 → a ≠ chanAddr n .blue) :
    (t.byteAt a).getLsbD j = (s.byteAt a).getLsbD j :=
  exec_preserves (fun u => (u.byteAt a).getLsbD j) h rfl (fun _ _ => rfl) fun _ _ =>
    embedKey_getLsbD_other s hj

/-- A command other than `CLRF` that ends without a fault found the record so (10_state.md R19). -/
theorem exec_keeps_record {i : Instr} {s t : State} (h : exec i s = .next t) (hi : i ≠ .clrf)
    (hf : t.fault = false) : s.fault = false ∧ t.errcode = s.errcode ∧ t.fcmd = s.fcmd := by
  rcases exec_next_cases h with ⟨rfl, -⟩ | ⟨-, -, rfl⟩ | ⟨-, -, e, rfl⟩ | ⟨-, ha, rfl⟩
  · exact absurd rfl hi
  · exact ⟨hf, rfl, rfl⟩
  · simp at hf
  · have same := commandBody_same hi s
    exact ⟨ha.1, same.errcode, same.fcmd⟩

/-- A command that latches a fault writes the fault record only (60_exceptions.md R121). -/
theorem exec_faulting_eq_raise {i : Instr} {s t : State} (h : exec i s = .next t) (hs : s.fault = false)
    (ht : t.fault = true) : ∃ e, t = raise e (encode i) s := by
  rcases exec_next_cases h with ⟨-, rfl⟩ | ⟨-, hf, rfl⟩ | ⟨-, -, e, rfl⟩ | ⟨hi, -, rfl⟩
  · simp at ht
  · simp [hs] at hf
  · exact ⟨e, rfl⟩
  · simp [(commandBody_same hi s).fault, hs] at ht

/-! ### states that agree on the sequence (10_state.md R22) -/

section
variable {n : Nat} {s s' t t' : State}

theorem AgreeBelow.seqLen (h : AgreeBelow n s s') : s'.seqLen = s.seqLen := congrArg BitVec.toNat h.npix

theorem AgreeBelow.nmax (h : AgreeBelow n s s') : s'.nmax = s.nmax := congrArg BitVec.toNat h.cap

theorem AgreeBelow.permAt (h : AgreeBelow n s s') (i : Nat) : s'.permAt i = s.permAt i := by
  rw [State.permAt, State.permAt, h.key, h.seqLen]

/-- Agreement of the bytes below `3 * n` is agreement of the first `n` pixels (10_state.md R20). -/
theorem bytes_agree_iff_pixels :
    (∀ a, a < 3 * n → s'.byteAt a = s.byteAt a) ↔ ∀ i, i < n → s'.pixel i = s.pixel i := by
  constructor
  · intro h i hi
    simp only [State.pixel, chanAddr_red, chanAddr_green, chanAddr_blue]
    rw [h _ (by omega), h _ (by omega), h _ (by omega)]
  · intro h a ha
    rw [State.byteAt_eq_pixelByte, State.byteAt_eq_pixelByte, h _ (by omega)]

theorem AgreeBelow.pixel (h : AgreeBelow n s s') {i : Nat} (hi : i < n) : s'.pixel i = s.pixel i :=
  bytes_agree_iff_pixels.1 h.bytes i hi

/-- After two updates of the pixels alone, the pixels decide. -/
theorem AgreeBelow.of_sameButPixels (h : AgreeBelow n s s') (e : SameButPixels s t)
    (e' : SameButPixels s' t') (hpix : ∀ i, i < n → t'.pixel i = t.pixel i) : AgreeBelow n t t' where
  key := by rw [e'.key, e.key, h.key]
  npix := by rw [e'.npix, e.npix, h.npix]
  fault := by rw [e'.fault, e.fault, h.fault]
  errcode := by rw [e'.errcode, e.errcode, h.errcode]
  fcmd := by rw [e'.fcmd, e.fcmd, h.fcmd]
  cap := by rw [e'.cap, e.cap, h.cap]
  draws := by rw [e'.draws, e.draws, h.draws]
  bytes := bytes_agree_iff_pixels.2 hpix

/-! ### every operation keeps the agreement -/

theorem raise_agree (h : AgreeBelow n s s') (e : Cause) (w : Word) :
    AgreeBelow n (raise e w s) (raise e w s') :=
  { h with fault := rfl, errcode := rfl, fcmd := rfl }

theorem clearFault_agree (h : AgreeBelow n s s') : AgreeBelow n (clearFault s) (clearFault s') :=
  { h with fault := rfl, errcode := rfl, fcmd := rfl }

theorem drawKey_agree (h : AgreeBelow n s s') : AgreeBelow n (drawKey s) (drawKey s') :=
  { h with key := congrArg keyDraw h.draws, draws := congrArg (· + 1) h.draws }

theorem maskPixels_agree (h : AgreeBelow n s s') : AgreeBelow n (maskPixels s) (maskPixels s') :=
  h.of_sameButPixels (maskPixels_same s) (maskPixels_same s') fun i hi => by
    rw [maskPixels_pixel, maskPixels_pixel, h.seqLen, h.key, h.pixel hi]

theorem embedKey_agree (h : AgreeBelow n s s') : AgreeBelow n (embedKey s) (embedKey s') :=
  h.of_sameButPixels (embedKey_same s) (embedKey_same s') fun i hi => by
    rw [embedKey_pixel, embedKey_pixel, h.key, h.pixel hi]

/-- The 8 slots are below `NPIX`, so the extracted key is the same (40_keycodec.md R71). -/
theorem extractKey_agree (h : AgreeBelow n s s') (hn : 8 ≤ n) :
    AgreeBelow n (extractKey s) (extractKey s') :=
  { h with
    key := slotKeyBit_ext fun i hi => by
      rw [extractKey_key, extractKey_key, slotKeyBit_slotKey s' i hi, slotKeyBit_slotKey s i hi,
        State.slotBit_eq, State.slotBit_eq, h.pixel (Nat.lt_of_lt_of_le hi hn)] }

/-- The gather reads within the sequence (42_shuffler.md R88, R91). -/
theorem permutePixels_agree (h : AgreeBelow n s s') (hn : s.seqLen = n) :
    AgreeBelow n (permutePixels s) (permutePixels s') :=
  h.of_sameButPixels (permutePixels_same s) (permutePixels_same s') fun i hi => by
    subst hn
    have hperm : s.permAt i < s.seqLen := genPerm_getD_lt hi
    rw [permutePixels_pixel, permutePixels_pixel, h.seqLen, if_pos hi, if_pos hi, h.permAt, h.pixel hperm]

/-- The scatter fills the whole sequence from the sequence (42_shuffler.md R88, R92). -/
theorem unpermutePixels_agree (h : AgreeBelow n s s') (hn : s.seqLen = n) :
    AgreeBelow n (unpermutePixels s) (unpermutePixels s') :=
  h.of_sameButPixels (unpermutePixels_same s) (unpermutePixels_same s') fun q hq => by
    subst hn
    obtain ⟨i, hi, rfl⟩ : ∃ i, i < s.seqLen ∧ s.permAt i = q := genPerm_getD_surj hq
    have hi' : i < s'.seqLen := h.seqLen.symm ▸ hi
    rw [unpermutePixels_pixel_target s hi, ← h.permAt, unpermutePixels_pixel_target s' hi', h.pixel hi]

theorem encryptPixels_agree (h : AgreeBelow n s s') (hn : s.seqLen = n) :
    AgreeBelow n (encryptPixels s) (encryptPixels s') :=
  embedKey_agree <| permutePixels_agree (maskPixels_agree (drawKey_agree h))
    ((maskPixels_same (drawKey s)).seqLen.trans hn)

theorem decryptPixels_agree (h : AgreeBelow n s s') (hn : s.seqLen = n) (h8 : 8 ≤ n) :
    AgreeBelow n (decryptPixels s) (decryptPixels s') :=
  maskPixels_agree <| unpermutePixels_agree (extractKey_agree h h8) hn

theorem commandBody_agree {i : Instr} {m : Nat} (hm : minPixels i = some m) (h : AgreeBelow n s s')
    (hn : s.seqLen = n) (hmn : m ≤ n) : AgreeBelow n (commandBody i s) (commandBody i s') := by
  cases i <;> simp only [minPixels, Option.some.injEq, reduceCtorEq] at hm <;> subst hm
  case mask => exact maskPixels_agree h
  case permute => exact permutePixels_agree h hn
  case unpermute => exact unpermutePixels_agree h hn
  case embed => exact embedKey_agree h
  case extract => exact extractKey_agree h hmn
  case encrypt => exact encryptPixels_agree h hn
  case decrypt => exact decryptPixels_agree h hn hmn

theorem unlessLatched_agree {f : State → State} (h : AgreeBelow n s s')
    (hf : AgreeBelow n (f s) (f s')) : AgreeBelow n (unlessLatched s f) (unlessLatched s' f) := by
  rw [unlessLatched, unlessLatched, h.fault]
  split
  · exact h
  · exact hf

theorem checkLen_agree {f : State → State} (h : AgreeBelow n s s') (hn : s.seqLen = n) (m : Nat) (w : Word)
    (hf : m ≤ n → AgreeBelow n (f s) (f s')) : AgreeBelow n (checkLen m w s f) (checkLen m w s' f) := by
  rw [checkLen, checkLen, h.seqLen, h.nmax]
  split
  · exact raise_agree h _ _
  · split
    · exact raise_agree h _ _
    · exact hf (by omega)

theorem exec_agree (i : Instr) (h : AgreeBelow n s s') (hn : s.seqLen = n) :
    ∃ t t', exec i s = .next t ∧ exec i s' = .next t' ∧ AgreeBelow n t t' := by
  cases hm : minPixels i with
  | some m =>
    exact ⟨_, _, exec_eq_of_minPixels hm s, exec_eq_of_minPixels hm s',
      unlessLatched_agree h (checkLen_agree h hn m _ fun hmn => commandBody_agree hm h hn hmn)⟩
  | none =>
    cases i <;> simp only [minPixels, reduceCtorEq] at hm
    case nop => exact ⟨_, _, exec_nop s, exec_nop s', h⟩
    case genkey => exact ⟨_, _, rfl, rfl, unlessLatched_agree h (drawKey_agree h)⟩
    case clrf => exact ⟨_, _, exec_clrf s, exec_clrf s', clearFault_agree h⟩

end

/-! ### `KEY` overwritten -/

theorem extractKey_setKey (s : State) (k : Byte) : extractKey { s with key := k } = extractKey s := rfl

theorem drawKey_setKey (s : State) (k : Byte) : drawKey { s with key := k } = drawKey s := rfl

/-- The commands that write `KEY` write it before they read it (10_state.md R21). -/
theorem commandBody_setKey {i : Instr} (hi : i ∈ [Instr.extract, .genkey, .encrypt, .decrypt]) (s : State)
    (k : Byte) : commandBody i { s with key := k } = commandBody i s := by
  simp only [List.mem_cons, List.not_mem_nil, or_false] at hi
  rcases hi with rfl | rfl | rfl | rfl
  · exact extractKey_setKey s k
  · exact drawKey_setKey s k
  · simp only [commandBody, encryptPixels, drawKey_setKey]
  · simp only [commandBody, decryptPixels, extractKey_setKey]

theorem exec_keyWriter_ready {i : Instr} (hi : i ∈ [Instr.extract, .genkey, .encrypt, .decrypt]) {s : State}
    (hs : s.ready 8) : exec i s = .next (commandBody i s) := by
  simp only [List.mem_cons, List.not_mem_nil, or_false] at hi
  rcases hi with rfl | rfl | rfl | rfl
  · exact exec_ready rfl hs
  · exact exec_genkey hs.1
  · exact exec_ready rfl hs
  · exact exec_ready rfl hs

/-! ### one transaction at the port -/

theorem step_read {s : State} {a : PortAddr} {rest : List HostEvent} (h : s.pending = .tx (.read a) :: rest) :
    step s = .next { s with pending := rest, resp := some (readResponse a s) } :=
  step_event h

theorem step_write {s t : State} {a : PortAddr} {v : Word} {rest : List HostEvent}
    (h : s.pending = .tx (.write a v) :: rest) (ht : memWrite a v { s with pending := rest } = .next t) :
    step s = .next { t with resp := some (writeResponse a s) } := by
  rw [step_event h, hostEvent, transact, ht]
  rfl

theorem byteOffset_of_target {n : Nat} {a : PortAddr} {r : Reg} (h : target n a = .reg r) :
    byteOffset a = regOffset r := by
  rcases target_cases n a with ⟨r', hr, e⟩ | ⟨i, -, -, e⟩ | ⟨-, -, e⟩
  · obtain rfl := Target.reg.inj (e.symm.trans h)
    exact hr
  · cases e.symm.trans h
  · cases e.symm.trans h

theorem memWrite_cmd {a : PortAddr} (ha : byteOffset a = regOffset .cmd) (w : Word) (s : State) :
    memWrite a w s = dispatch w s := by
  simp only [memWrite, target_of_reg ha]

theorem memWrite_cap {a : PortAddr} (ha : byteOffset a = regOffset .cap) (v : Word) (s : State) :
    memWrite a v s = .next s := by
  simp only [memWrite, target_of_reg ha]

theorem writeResponse_reg {a : PortAddr} {r : Reg} (ha : byteOffset a = regOffset r) (s : State) :
    writeResponse a s = .okWrite := by
  rw [writeResponse, target_of_reg ha, if_neg (by simp)]

theorem readResponse_cmd {a : PortAddr} (ha : byteOffset a = regOffset .cmd) (s : State) :
    readResponse a s = .okRead 0 := by
  simp only [readResponse, memRead, target_of_reg ha]

theorem readResponse_cap {a : PortAddr} (ha : byteOffset a = regOffset .cap) (s : State) :
    readResponse a s = .okRead s.cap := by
  simp only [readResponse, memRead, target_of_reg ha]

/-! ### the fault record through the layers of a step -/

/-- `FAULT`, `ERRCODE` and `FCMD` together (10_state.md R15, R17). -/
def State.record (s : State) : Bool × BitVec 4 × Word := (s.fault, s.errcode, s.fcmd)

/-- The record with no fault latched, as after reset and after `CLRF`. -/
def clearRecord : Bool × BitVec 4 × Word := (false, 0, 0)

/-- The record after `raise e` for the word `w`. -/
def latchedRecord (e : Cause) (w : Word) : Bool × BitVec 4 × Word := (true, e.code, w)

theorem State.record_eq_iff {s : State} {f : Bool} {c : BitVec 4} {w : Word} :
    s.record = (f, c, w) ↔ s.fault = f ∧ s.errcode = c ∧ s.fcmd = w := by
  simp only [State.record, Prod.mk.injEq]

/-- What a write of `w` to `CMD` does to the fault record of `s`, leaving it as in `t`: nothing, `CLRF`'s
return, or the entry into a fault where none was latched (30_encoding.md R51). -/
def RecordAfter (w : Word) (s t : State) : Prop :=
  t.record = s.record ∨ (w = encode .clrf ∧ t.record = clearRecord) ∨
    (s.fault = false ∧ ∃ e, t.record = latchedRecord e w)

theorem exec_record {i : Instr} {s t : State} (h : exec i s = .next t) : RecordAfter (encode i) s t := by
  rcases exec_next_cases h with ⟨rfl, rfl⟩ | ⟨-, -, rfl⟩ | ⟨-, hf, e, rfl⟩ | ⟨hi, -, rfl⟩
  · exact .inr (.inl ⟨rfl, rfl⟩)
  · exact .inl rfl
  · exact .inr (.inr ⟨hf, e, rfl⟩)
  · have same := commandBody_same hi s
    exact .inl (State.record_eq_iff.2 ⟨same.fault, same.errcode, same.fcmd⟩)

/-- Everything `Dispatch(w)` can do: the command `w` encodes, or, for an illegal word, nothing under a
latched fault and else the fault of R54. -/
theorem dispatch_next_cases {w : Word} {s t : State} (h : dispatch w s = .next t) :
    (∃ i, w = encode i ∧ exec i s = .next t) ∨ (s.fault = true ∧ t = s) ∨
    (s.fault = false ∧ t = raise .illegalCommand w s) := by
  cases hw : decode w with
  | ok i => exact .inl ⟨i, eq_encode_of_decode hw, (dispatch_ok hw s).symm.trans h⟩
  | error r =>
    obtain rfl := Host.Outcome.next.inj ((dispatch_error hw s).symm.trans h)
    cases hf : s.fault with
    | true => exact .inr (.inl ⟨rfl, unlessLatched_latched hf _⟩)
    | false => exact .inr (.inr ⟨rfl, unlessLatched_clear hf _⟩)

theorem dispatch_record {w : Word} {s t : State} (h : dispatch w s = .next t) : RecordAfter w s t := by
  rcases dispatch_next_cases h with ⟨i, rfl, hi⟩ | ⟨-, rfl⟩ | ⟨hf, rfl⟩
  · exact exec_record hi
  · exact .inl rfl
  · exact .inr (.inr ⟨hf, .illegalCommand, rfl⟩)

theorem dispatch_cap {w : Word} {s t : State} (h : dispatch w s = .next t) : t.cap = s.cap := by
  rcases dispatch_next_cases h with ⟨i, -, hi⟩ | ⟨-, rfl⟩ | ⟨-, rfl⟩
  · exact exec_cap hi
  · rfl
  · rfl

/-- A write elsewhere than to `CMD` leaves the fault record and `CAP` alone (10_state.md R18, R19). -/
theorem memWrite_record_cap {a : PortAddr} {v : Word} {s t : State} (ha : byteOffset a ≠ regOffset .cmd)
    (h : memWrite a v s = .next t) : t.record = s.record ∧ t.cap = s.cap := by
  rcases memWrite_cases a v s with ⟨hcmd, -⟩ | ⟨-, e⟩ | ⟨-, e⟩ | ⟨i, -, -, e⟩ | ⟨-, e⟩
  · exact absurd (byteOffset_of_target hcmd) ha
  all_goals
    obtain rfl := Host.Outcome.next.inj (e.symm.trans h)
    exact ⟨rfl, rfl⟩

/-- The next state of a step, as far as the fault record and `CAP` go: a reset, a write to `CMD`, or a step
that keeps both (10_state.md R19). -/
theorem step_next_cases {s t : State} (h : step s = .next t) :
    ((∃ c rest, s.pending = .reset c :: rest) ∧ t.record = clearRecord ∧ t.cap = s.cap) ∨
    (∃ a w rest, s.pending = .tx (.write a w) :: rest ∧ byteOffset a = regOffset .cmd ∧
      RecordAfter w s t ∧ t.cap = s.cap) ∨
    (t.record = s.record ∧ t.cap = s.cap) := by
  cases hp : s.pending with
  | nil =>
    obtain rfl := Host.Outcome.next.inj ((step_idle hp).symm.trans h)
    exact .inr (.inr ⟨rfl, rfl⟩)
  | cons e rest =>
    rcases hostEvent_cases e { s with pending := rest } with ⟨a, -, eq⟩ | ⟨a, v, u, rfl, hu, eq⟩ |
        ⟨c, rfl, eq⟩ <;>
      obtain rfl := Host.Outcome.next.inj (eq.symm.trans ((step_event hp).symm.trans h))
    · exact .inr (.inr ⟨rfl, rfl⟩)
    · by_cases ha : byteOffset a = regOffset .cmd
      · have hd : dispatch v { s with pending := rest } = .next u := (memWrite_cmd ha v _).symm.trans hu
        have hafter := dispatch_record hd
        have hcap := dispatch_cap hd
        exact .inr (.inl ⟨a, v, rest, rfl, ha, hafter, hcap⟩)
      · have hkept := memWrite_record_cap ha hu
        exact .inr (.inr hkept)
    · exact .inl ⟨⟨c, rest, rfl⟩, rfl, rfl⟩

theorem step_cap {s t : State} (h : step s = .next t) : t.cap = s.cap := by
  rcases step_next_cases h with ⟨-, -, e⟩ | ⟨_, _, _, -, -, -, e⟩ | ⟨-, e⟩ <;> exact e

/-! ### the legal fault record (10_state.md R16) -/

theorem State.faultRecordLegal_of_record_eq {s t : State} (h : t.record = s.record)
    (hs : s.faultRecordLegal) : t.faultRecordLegal := by
  obtain ⟨hfault, herrcode, hfcmd⟩ := State.record_eq_iff.1 h
  rwa [State.faultRecordLegal, hfault, herrcode, hfcmd]

theorem State.faultRecordLegal_of_clear {s : State} (h : s.record = clearRecord) : s.faultRecordLegal := by
  obtain ⟨hfault, herrcode, hfcmd⟩ := State.record_eq_iff.1 h
  exact ⟨by simp [hfault, herrcode], fun _ => hfcmd⟩

theorem State.faultRecordLegal_of_latched {s : State} {e : Cause} {w : Word}
    (h : s.record = latchedRecord e w) : s.faultRecordLegal := by
  obtain ⟨hfault, herrcode, -⟩ := State.record_eq_iff.1 h
  exact ⟨iff_of_true hfault (herrcode ▸ e.code_ne_zero), by simp [hfault]⟩

theorem RecordAfter.faultRecordLegal {w : Word} {s t : State} (h : RecordAfter w s t)
    (hs : s.faultRecordLegal) : t.faultRecordLegal := by
  rcases h with h | ⟨-, h⟩ | ⟨-, e, h⟩
  · exact State.faultRecordLegal_of_record_eq h hs
  · exact State.faultRecordLegal_of_clear h
  · exact State.faultRecordLegal_of_latched h

theorem step_faultRecordLegal {s t : State} (hs : s.faultRecordLegal) (h : step s = .next t) :
    t.faultRecordLegal := by
  rcases step_next_cases h with ⟨-, hclear, -⟩ | ⟨_, _, _, -, -, hafter, -⟩ | ⟨hsame, -⟩
  · exact State.faultRecordLegal_of_clear hclear
  · exact hafter.faultRecordLegal hs
  · exact State.faultRecordLegal_of_record_eq hsame hs

/-! ### the obligations -/

/-- Settles O50: every operation of a command keeps the agreement on the sequence. -/
theorem commandsDependOnTheSequenceAlone : Obligations.CommandsDependOnTheSequenceAlone :=
  fun i _ _ h => exec_agree i h rfl

/-- Settles O12, by the layers of a step and the port's equations at offset 0x10. -/
theorem capIsAConstant : Obligations.CapIsAConstant := by
  refine ⟨fun _ _ => step_cap, fun s a rest ha hp => ?_, fun s a v rest ha hp => ?_⟩
  · rw [step_read hp, readResponse_cap ha, State.nmax, BitVec.ofNat_toNat, BitVec.setWidth_eq]
  · rw [step_write hp (memWrite_cap ha v _), writeResponse_reg (r := .cap) ha]

/-- Settles O18: the record is kept, cleared or latched, and each of the three is legal. -/
theorem faultRecordStaysConsistent : Obligations.FaultRecordStaysConsistent :=
  ⟨State.faultRecordLegal_of_clear (s := State.reset) rfl, fun _ _ => step_faultRecordLegal⟩

/-- Settles O19: a step that is no reset and no write to `CMD` keeps the record. -/
theorem onlyCommandsAndResetChangeTheFaultRecord :
    Obligations.OnlyCommandsAndResetChangeTheFaultRecord := by
  intro s t h hne
  have changed : t.record ≠ s.record := by
    intro e
    obtain ⟨hfault, herrcode, hfcmd⟩ := State.record_eq_iff.1 e
    simp [hfault, herrcode, hfcmd] at hne
  rcases step_next_cases h with ⟨hreset, -, -⟩ | ⟨a, w, rest, hp, ha, hafter, -⟩ | ⟨hsame, -⟩
  · exact .inl hreset
  · refine .inr ⟨a, w, rest, hp, ha, ?_⟩
    rcases hafter with hsame | ⟨hw, -⟩ | ⟨hf, e, hlatched⟩
    · exact absurd hsame changed
    · exact .inl hw
    · obtain ⟨hfault, -, hfcmd⟩ := State.record_eq_iff.1 hlatched
      exact .inr ⟨hf, hfault, hfcmd⟩
  · exact absurd hsame changed

/-- Settles O49, clause by clause, from what a command can answer and what its body leaves alone. -/
theorem commandsWriteOnlyWhatTheTableLists : Obligations.CommandsWriteOnlyWhatTheTableLists := by
  intro i s t h
  refine ⟨?npix, exec_cap h, ?epoch, ?pending, ?resp, exec_sameBeyond h, fun hi => ?key, fun hi a => ?bytes,
    fun hi => ?draws, ?embed, fun hi hf => exec_keeps_record h hi hf, fun ht hs => ?faulting,
    fun hi hs => ?ignored⟩
  case npix => exact exec_preserves State.npix h rfl (fun _ _ => rfl) fun hc _ => (commandBody_same hc s).npix
  case epoch => exact exec_preserves State.epoch h rfl (fun _ _ => rfl) fun hc _ => (commandBody_same hc s).epoch
  case pending =>
    exact exec_preserves State.pending h rfl (fun _ _ => rfl) fun hc _ => (commandBody_same hc s).pending
  case resp => exact exec_preserves State.resp h rfl (fun _ _ => rfl) fun hc _ => (commandBody_same hc s).resp
  case key => exact exec_preserves State.key h rfl (fun _ _ => rfl) fun _ _ => commandBody_key hi s
  case bytes =>
    exact exec_preserves (State.byteAt · a) h rfl (fun _ _ => rfl) fun _ _ => commandBody_byteAt hi s a
  case draws => exact exec_preserves State.draws h rfl (fun _ _ => rfl) fun _ _ => commandBody_draws hi s
  case embed =>
    rintro rfl a j hj
    exact exec_embed_getLsbD h hj
  case faulting =>
    obtain ⟨e, rfl⟩ := exec_faulting_eq_raise h hs ht
    exact ⟨rfl, rfl, fun _ => rfl⟩
  case ignored => exact Host.Outcome.next.inj (h.symm.trans (exec_latched hi hs))

/-- Settles O51: the bodies of the four commands overwrite `KEY` before they read it. -/
theorem oldKeyIsOverwrittenUnseen : Obligations.OldKeyIsOverwrittenUnseen := by
  intro s i k hi hs
  refine ⟨commandBody i s, exec_keyWriter_ready hi hs, ?_⟩
  rw [exec_keyWriter_ready (s := { s with key := k }) hi hs, commandBody_setKey hi]

/-- Settles O6, by the port's equations at offset 0x00 and the decoded command's answer. -/
theorem stepRunsTheDecodedCommand : Obligations.StepRunsTheDecodedCommand := by
  refine ⟨fun s a w rest i hp ha hw _ => ?_, fun s a rest hp ha => ?_⟩
  · obtain ⟨t, ht⟩ := exec_answers i { s with pending := rest }
    have hmem : memWrite a w { s with pending := rest } = .next t := by rw [memWrite_cmd ha, dispatch_ok hw, ht]
    exact ⟨t, ht, by rw [step_write hp hmem, writeResponse_reg (r := .cmd) ha]⟩
  · rw [step_read hp, readResponse_cmd ha]

/-- Settles O13, by the memory's read after write. -/
theorem channelsReadBackAsWritten : Obligations.ChannelsReadBackAsWritten := by
  intro s a a' b
  constructor
  · rw [State.byteAt_setByte, if_pos rfl]
  · intro h
    rw [State.byteAt_setByte, if_neg h]

/-- Settles O14: the fields of `State.reset`, and the `STATUS` word they give. -/
theorem resetStateHoldsTheResetValues : Obligations.ResetStateHoldsTheResetValues :=
  ⟨rfl, rfl, rfl, rfl, rfl, rfl, rfl⟩

/-- Settles O16: no cause is latched, the reference capacity is in range, and no pixel is listed. -/
theorem resetStateMeetsTheInvariant : Obligations.ResetStateMeetsTheInvariant :=
  .of_clear ⟨by decide, by decide⟩ rfl rfl rfl ⟨Memory.wf_nil, fun _ hc => absurd hc List.not_mem_nil⟩

end Sys2Proof.Machine
end

section
/-! PROOF. The memory map's statements (20_memory.md): the word a host read returns, the effect of a host
write, and its repetition. The port's functions get one equation per kind of offset (R31): a register, a
pixel of the aperture, elsewhere. -/

namespace Sys2Proof.Machine

/-! ### the kinds of offset -/

/-- Beside the six listed offsets no register stands (20_memory.md R31). -/
theorem ne_regOffset_of_notMem {off : Nat} (h : off ∉ [0x00, 0x04, 0x08, 0x0C, 0x10, 0x14]) (r : Reg) :
    off ≠ regOffset r := by
  rintro rfl
  cases r <;> simp [regOffset] at h

theorem writeResponse_pix {a : PortAddr} {i : Nat} {s : State} (hi : i < s.nmax)
    (ha : byteOffset a = pixBase + 4 * i) : writeResponse a s = .okWrite := by
  rw [writeResponse, target_of_pix hi ha, if_neg (by simp)]

theorem writeResponse_unmapped {a : PortAddr} {s : State} (h : target s.nmax a = .unmapped) :
    writeResponse a s = .err := by
  rw [writeResponse, if_pos h]

/-! ### what a read returns -/

/-- The word a register reads as (20_memory.md R33); tied to the port by `readResponse_reg`. -/
def State.regWord (s : State) : Reg → Word
  | .cmd => 0
  | .status => s.status
  | .key => s.key.setWidth 32
  | .npix => s.npix
  | .cap => s.cap
  | .fcmd => s.fcmd

theorem readResponse_reg {a : PortAddr} {r : Reg} (ha : byteOffset a = regOffset r) (s : State) :
    readResponse a s = .okRead (s.regWord r) := by
  rw [readResponse, memRead, target_of_reg ha]
  cases r <;> rfl

theorem readResponse_pix {a : PortAddr} {i : Nat} {s : State} (hi : i < s.nmax)
    (ha : byteOffset a = pixBase + 4 * i) : readResponse a s = .okRead ((s.pixel i).setWidth 32) := by
  simp only [readResponse, memRead, target_of_pix hi ha]

theorem readResponse_unmapped {a : PortAddr} {s : State} (h : target s.nmax a = .unmapped) :
    readResponse a s = .err := by
  simp only [readResponse, memRead, h]

theorem State.cap_eq_ofNat_nmax (s : State) : s.cap = BitVec.ofNat 32 s.nmax := by
  rw [State.nmax, BitVec.ofNat_toNat, BitVec.setWidth_eq]

/-- A pixel's word has a zero byte above the red channel (20_memory.md R33). -/
theorem State.setWidth_pixel (s : State) (i : Nat) :
    (s.pixel i).setWidth 32 =
      0#8 ++ s.byteAt (chanAddr i .red) ++ s.byteAt (chanAddr i .green) ++ s.byteAt (chanAddr i .blue) := by
  rw [State.pixel]
  apply BitVec.eq_of_toNat_eq
  rw [BitVec.toNat_setWidth, Nat.mod_eq_of_lt (by omega)]
  simp only [BitVec.toNat_append, BitVec.toNat_ofNat, Nat.zero_mod, Nat.zero_shiftLeft, Nat.zero_or]

/-! ### what a write does -/

/-- The effect of a host write on a register other than `CMD` (20_memory.md R34); tied to the port by
`memWrite_reg`. -/
def State.writeReg (s : State) (v : Word) : Reg → State
  | .key => { s with key := v.setWidth 8 }
  | .npix => { s with npix := v }
  | .cmd | .status | .cap | .fcmd => s

theorem memWrite_reg {a : PortAddr} {r : Reg} (ha : byteOffset a = regOffset r) (hr : r ≠ .cmd) (v : Word)
    (s : State) : memWrite a v s = .next (s.writeReg v r) := by
  rw [memWrite, target_of_reg ha]
  cases r with
  | cmd => exact absurd rfl hr
  | status | key | npix | cap | fcmd => rfl

theorem memWrite_pix {a : PortAddr} {i : Nat} {s : State} (hi : i < s.nmax)
    (ha : byteOffset a = pixBase + 4 * i) (v : Word) :
    memWrite a v s = .next (s.setPixel i (v.setWidth 24)) := by
  simp only [memWrite, target_of_pix hi ha]

theorem memWrite_unmapped {a : PortAddr} {s : State} (h : target s.nmax a = .unmapped) (v : Word) :
    memWrite a v s = .next s := by
  simp only [memWrite, h]

section
variable {s : State} {a : PortAddr} {v : Word} {rest : List HostEvent}

theorem step_write_reg {r : Reg} (hp : s.pending = .tx (.write a v) :: rest)
    (ha : byteOffset a = regOffset r) (hr : r ≠ .cmd) :
    step s = .next (State.writeReg { s with pending := rest, resp := some .okWrite } v r) := by
  rw [step_write hp (memWrite_reg ha hr v _), writeResponse_reg ha]
  cases r <;> rfl

theorem step_write_pix {i : Nat} (hp : s.pending = .tx (.write a v) :: rest) (hi : i < s.nmax)
    (ha : byteOffset a = pixBase + 4 * i) :
    step s = .next (State.setPixel { s with pending := rest, resp := some .okWrite } i (v.setWidth 24)) := by
  rw [step_write hp (memWrite_pix (s := { s with pending := rest }) hi ha v), writeResponse_pix hi ha]
  rfl

theorem step_write_unmapped (hp : s.pending = .tx (.write a v) :: rest)
    (h : target s.nmax a = .unmapped) :
    step s = .next { s with pending := rest, resp := some .err } := by
  rw [step_write hp (memWrite_unmapped (s := { s with pending := rest }) h v), writeResponse_unmapped h]

end

/-! ### a pixel write, channel by channel -/

theorem chanAddr_div (i : Nat) (c : Channel) : chanAddr i c / 3 = i := by
  cases c <;> simp only [chanAddr_red, chanAddr_green, chanAddr_blue] <;> omega

theorem chanAddr_mod (i : Nat) (c : Channel) : chanAddr i c % 3 = c.index := by
  cases c <;> simp only [chanAddr_red, chanAddr_green, chanAddr_blue, Channel.index] <;> omega

/-- The addresses of a pixel are those of its three channels. -/
theorem exists_eq_chanAddr (a : Nat) : ∃ c, a = chanAddr (a / 3) c := by
  have h : a % 3 = 0 ∨ a % 3 = 1 ∨ a % 3 = 2 := by omega
  rcases h with h | h | h
  · exact ⟨.red, by rw [chanAddr_red]; omega⟩
  · exact ⟨.green, by rw [chanAddr_green]; omega⟩
  · exact ⟨.blue, by rw [chanAddr_blue]; omega⟩

theorem State.byteAt_setPixel_other (s : State) {i a : Nat} (p : Pixel) (h : ∀ c, a ≠ chanAddr i c) :
    (s.setPixel i p).byteAt a = s.byteAt a := by
  rw [State.byteAt_setPixel, if_neg]
  rintro rfl
  obtain ⟨c, hc⟩ := exists_eq_chanAddr a
  exact h c hc

theorem pixelByte_setWidth (v : Word) (c : Channel) :
    pixelByte (v.setWidth 24) c.index = v.extractLsb' (8 * (2 - c.index)) 8 := by
  apply BitVec.eq_of_getLsbD_eq
  intro j hj
  have hlow : 8 * (2 - c.index) + j < 24 := by omega
  simp [pixelByte, hj, hlow]

/-- A channel reads as its byte of the host word, whose bits [31:24] are dropped (20_memory.md R34). -/
theorem State.byteAt_setPixel_word (s : State) (i : Nat) (v : Word) (c : Channel) :
    (s.setPixel i (v.setWidth 24)).byteAt (chanAddr i c) = v.extractLsb' (8 * (2 - c.index)) 8 := by
  rw [State.byteAt_setPixel, if_pos (chanAddr_div i c), chanAddr_mod, pixelByte_setWidth]

/-! ### the same write again -/

theorem State.writeReg_writeReg (s : State) (v : Word) (r : Reg) :
    (s.writeReg v r).writeReg v r = s.writeReg v r := by
  cases r <;> rfl

/-- Writes at two addresses commute, also in a list that is not canonical: each stops at the first entry
that is not below its address. -/
theorem Memory.write_comm (m : Memory) {a a' : Nat} (h : a < a') (b b' : Byte) :
    (m.write a' b').write a b = (m.write a b).write a' b' := by
  have hne : a' ≠ a := by omega
  have hle : ¬ a' < a := by omega
  induction m with
  | nil => simp [Memory.write, h, hne, hle]
  | cons d m ih =>
    obtain ⟨k, x⟩ := d
    rcases Nat.lt_trichotomy a k with hk | rfl | hk
    · rcases Nat.lt_trichotomy a' k with hk' | rfl | hk'
      · simp [Memory.write, h, hne, hle, hk, hk']
      · simp [Memory.write, h, hne, hle]
      · simp [Memory.write, hne, hle, hk, hk'.not_gt, hk'.ne']
    · simp [Memory.write, hne, hle]
    · have hk' : k < a' := hk.trans h
      simp [Memory.write, hk.not_gt, hk.ne', hk'.not_gt, hk'.ne', ih]

theorem State.setByte_setByte (s : State) (a : Nat) (b b' : Byte) :
    (s.setByte a b).setByte a b' = s.setByte a b' := by
  simp only [State.setByte, Memory.write_write]

theorem State.setByte_comm (s : State) {a a' : Nat} (h : a < a') (b b' : Byte) :
    (s.setByte a' b').setByte a b = (s.setByte a b).setByte a' b' := by
  simp only [State.setByte, Memory.write_comm _ h]

/-- The last write of a pixel stands: each channel's second write moves next to its first. -/
theorem State.setPixel_setPixel (s : State) (i : Nat) (p q : Pixel) :
    (s.setPixel i p).setPixel i q = s.setPixel i q := by
  have hrg : chanAddr i .red < chanAddr i .green := by simp
  have hrb : chanAddr i .red < chanAddr i .blue := by simp
  have hgb : chanAddr i .green < chanAddr i .blue := by simp
  simp only [State.setPixel]
  rw [State.setByte_comm _ hrb, State.setByte_comm _ hrg, State.setByte_setByte,
    State.setByte_comm _ hgb, State.setByte_setByte, State.setByte_setByte]

/-- A write elsewhere than to `CMD` does the same again (20_memory.md R37). -/
theorem memWrite_twice {a : PortAddr} (ha : byteOffset a ≠ regOffset .cmd) (v : Word) (s : State) :
    ∃ t, memWrite a v s = .next t ∧ memWrite a v t = .next t := by
  rcases target_cases s.nmax a with ⟨r, hr, -⟩ | ⟨i, hi, hpix, -⟩ | ⟨-, -, h⟩
  · have hcmd : r ≠ .cmd := by
      rintro rfl
      exact ha hr
    exact ⟨_, memWrite_reg hr hcmd v s, by rw [memWrite_reg hr hcmd, State.writeReg_writeReg]⟩
  · have hi' : i < (s.setPixel i (v.setWidth 24)).nmax := hi
    exact ⟨_, memWrite_pix hi hpix v, by rw [memWrite_pix hi' hpix, State.setPixel_setPixel]⟩
  · exact ⟨s, memWrite_unmapped h v, memWrite_unmapped h v⟩

theorem memWrite_command {i : Instr} {m : Nat} (hm : minPixels i = some m) {a : PortAddr}
    (ha : byteOffset a = regOffset .cmd) {s : State} (hs : s.ready m) :
    memWrite a (encode i) s = .next (commandBody i s) := by
  rw [memWrite_cmd ha, dispatch_ok (decode_encode i), exec_ready hm hs]

/-- One black pixel and the key 5: `MASK` makes it grey, and the same write again makes it black. -/
def maskable : State := small 5 1 [0x000000]

/-! ### the obligations -/

/-- Settles O9, by the read's equation for each kind of offset. -/
theorem hostReadsReturnTheMappedWord : Obligations.HostReadsReturnTheMappedWord := by
  intro s a rest hp
  refine ⟨readResponse a s, step_read hp, fun ha => readResponse_reg (r := .cmd) ha s,
    fun ha => readResponse_reg (r := .status) ha s, fun ha => readResponse_reg (r := .key) ha s,
    fun ha => readResponse_reg (r := .npix) ha s, fun ha => ?cap,
    fun ha => readResponse_reg (r := .fcmd) ha s, fun i hi ha => ?pix, fun hreg hpix => ?unmapped⟩
  case cap =>
    rw [← State.cap_eq_ofNat_nmax]
    exact readResponse_reg (r := .cap) ha s
  case pix => rw [readResponse_pix hi ha, State.setWidth_pixel]
  case unmapped => exact readResponse_unmapped (target_of_neither (ne_regOffset_of_notMem hreg) hpix)

/-- Settles O10, by the write's equation for each kind of offset, and the bytes of a pixel write. -/
theorem hostWritesHaveTheMappedEffect : Obligations.HostWritesHaveTheMappedEffect := by
  intro s a v rest hp
  refine ⟨fun ha => ?cmd, fun ha => step_write_reg (r := .status) hp ha (by decide), fun ha => ?key,
    fun ha => step_write_reg (r := .npix) hp ha (by decide),
    fun ha => step_write_reg (r := .cap) hp ha (by decide),
    fun ha => step_write_reg (r := .fcmd) hp ha (by decide), fun i hi ha => ?pix, fun hreg hpix => ?unmapped⟩
  case cmd =>
    obtain ⟨t, ht⟩ := dispatch_answers v { s with pending := rest }
    exact ⟨t, ht, by rw [step_write hp ((memWrite_cmd ha v _).trans ht), writeResponse_reg (r := .cmd) ha]⟩
  case key =>
    rw [step_write_reg (r := .key) hp ha (by decide), State.writeReg, BitVec.setWidth_eq_extractLsb' (by omega)]
  case pix =>
    have chan := State.byteAt_setPixel_word { s with pending := rest, resp := some .okWrite } i v
    exact ⟨_, step_write_pix hp hi ha, chan .red, chan .green, chan .blue,
      fun c hc => State.byteAt_setPixel_other _ _ hc, State.setPixel_same _ _ _⟩
  case unmapped => exact step_write_unmapped hp (target_of_neither (ne_regOffset_of_notMem hreg) hpix)

/-- Settles O11: a register or a pixel keeps the last word written, and a second `MASK` undoes the first. -/
theorem hostWritesButCmdAreIdempotent : Obligations.HostWritesButCmdAreIdempotent := by
  refine ⟨fun s a v ha => memWrite_twice ha v s, ?_⟩
  have once : maskable.ready 0 := ⟨by decide, by decide, by decide⟩
  have again : (maskPixels maskable).ready 0 := once
  exact ⟨maskable, portAddr 0x00, encode .mask, maskPixels maskable, maskPixels (maskPixels maskable), rfl,
    memWrite_command rfl rfl once, memWrite_command rfl rfl again, fun h => absurd (h 0) (by decide)⟩

end Sys2Proof.Machine
end

section
/-! PROOF. The encoding's statements (30_encoding.md): the command words and the decoder are inverse to each
other, the illegal words are exactly the words from 10 up, and `Dispatch(w)` follows the rule's cases. -/

namespace Sys2Proof.Machine

/-! ### the legal and the illegal words -/

theorem decode_eq_ok_iff {w : Word} {i : Instr} : decode w = .ok i ↔ w = encode i :=
  ⟨eq_encode_of_decode, fun h => h ▸ decode_encode i⟩

/-- The `OP` values from 0x0A up name no command (30_encoding.md R52, R54). -/
theorem exists_instrOfOp_iff (op : Byte) : (∃ i, instrOfOp op = some i) ↔ op.toNat < 0x0A := by
  unfold instrOfOp
  split
  case h_11 =>
    have : 0x0A ≤ op.toNat := by grind
    simp [this]
  all_goals simp [*]

/-- Both fields decide whether a word is legal: `RSV` is 0, and `OP` names a command. -/
theorem exists_decode_iff (w : Word) :
    (∃ i, decode w = .ok i) ↔ w.extractLsb' 8 24 = 0 ∧ (w.extractLsb' 0 8).toNat < 0x0A := by
  rw [← exists_instrOfOp_iff]
  by_cases hrsv : w.extractLsb' 8 24 = 0#24
  · cases hop : instrOfOp (w.extractLsb' 0 8) <;> simp [decode, CmdFields.ofWord, hrsv, hop]
  · simp [decode, CmdFields.ofWord, hrsv]

/-- The condition of R54 on the fields holds of the words that decode to no command. -/
theorem illegal_iff_decode_ne (w : Word) :
    (w.extractLsb' 8 24 ≠ 0 ∨ 0x0A ≤ (w.extractLsb' 0 8).toNat) ↔ ∀ i, decode w ≠ .ok i := by
  rw [← not_exists, exists_decode_iff, not_and_or, not_lt]

/-- The condition of R54 on the fields is one bound on the word, as the legal words are the smallest ten. -/
theorem illegal_iff_ten_le (w : Word) :
    (w.extractLsb' 8 24 ≠ 0 ∨ 0x0A ≤ (w.extractLsb' 0 8).toNat) ↔ 10 ≤ w.toNat := by
  have hw := w.isLt
  simp only [ne_eq, ← BitVec.toNat_inj, BitVec.extractLsb'_toNat, Nat.shiftRight_eq_div_pow, BitVec.ofNat_eq_ofNat,
    BitVec.toNat_ofNat]
  omega

/-- The words from `m` up, listed by their distance from `m`. -/
def wordsFrom (n m : Nat) : { w : BitVec n // m ≤ w.toNat } ≃ Fin (2 ^ n - m) where
  toFun w := ⟨w.1.toNat - m, by omega⟩
  invFun k := ⟨BitVec.ofNat n (m + k), by rw [BitVec.toNat_ofNat, Nat.mod_eq_of_lt] <;> omega⟩
  left_inv w := Subtype.ext (by simp [Nat.add_sub_cancel' w.2])
  right_inv k := Fin.ext (by simp [Nat.mod_eq_of_lt (show m + k.1 < 2 ^ n by omega)])

theorem card_words_from (n m : Nat) : Nat.card { w : BitVec n // m ≤ w.toNat } = 2 ^ n - m := by
  rw [Nat.card_congr (wordsFrom n m), Nat.card_fin]

/-! ### `Dispatch(w)` by the kind of word -/

theorem dispatch_encode (i : Instr) (s : State) : dispatch (encode i) s = exec i s :=
  dispatch_ok (decode_encode i) s

theorem dispatch_illegal {w : Word} (hw : ∀ i, decode w ≠ .ok i) (s : State) :
    dispatch w s = .next (unlessLatched s (raise .illegalCommand w)) := by
  cases h : decode w with
  | ok i => exact absurd h (hw i)
  | error r => exact dispatch_error h s

/-- A latched fault is tested before anything else: no word but `CLRF`'s does anything (30_encoding.md R51). -/
theorem dispatch_latched {w : Word} (hw : w ≠ encode .clrf) {s : State} (hf : s.fault = true) :
    dispatch w s = .next s := by
  cases h : decode w with
  | ok i =>
    obtain rfl := eq_encode_of_decode h
    have hi : i ≠ .clrf := fun e => hw (e ▸ rfl)
    rw [dispatch_encode, exec_latched hi hf]
  | error r => rw [dispatch_error h, unlessLatched_latched hf]

/-! ### the obligations -/

/-- Settles O1: the ten words by evaluation, and the decoder as the inverse of the encoder. -/
theorem commandWordsMatchOnAllBits : Obligations.CommandWordsMatchOnAllBits :=
  ⟨rfl, rfl, rfl, rfl, rfl, rfl, rfl, rfl, rfl, rfl, fun _ _ => decode_eq_ok_iff⟩

/-- Settles O4: the illegal words are those from 10 up, and the decoder rejects every one. -/
theorem illegalWordsRaiseOrAreIgnored : Obligations.IllegalWordsRaiseOrAreIgnored := by
  refine ⟨illegal_iff_decode_ne, ?count, fun w s hw => ?effect⟩
  case count => simp only [illegal_iff_ten_le, card_words_from]
  case effect =>
    rw [dispatch_illegal ((illegal_iff_decode_ne w).1 hw)]
    exact ⟨fun hf => by rw [unlessLatched_clear hf]; rfl, fun hf => by rw [unlessLatched_latched hf]⟩

/-- Settles O5: the write to `CMD` by the port's rule for it, and the cases of R51 by the kind of word. -/
theorem dispatchFollowsTheRule : Obligations.DispatchFollowsTheRule := by
  refine ⟨fun s a w rest hp ha => (hostWritesHaveTheMappedEffect s a w rest hp).1 ha, fun w s => ?_⟩
  split
  next hf =>
    split
    next hw => exact hw ▸ dispatch_encode .clrf s
    next hw => exact dispatch_latched hw hf
  next hf =>
    have hf : s.fault = false := by simpa using hf
    split
    next hw =>
      rw [dispatch_illegal ((illegal_iff_decode_ne w).1 hw), unlessLatched_clear hf]
      rfl
    next hw =>
      obtain ⟨i, hi⟩ := not_forall_not.1 (mt (illegal_iff_decode_ne w).2 hw)
      obtain rfl := eq_encode_of_decode hi
      rw [dispatch_encode]
      cases i <;> rfl

/-- Settles O2: the commands carry no operand, so that well-formedness asks for nothing. -/
theorem decodeInvertsEncode : Obligations.DecodeInvertsEncode :=
  fun i _ => decode_encode i

end Sys2Proof.Machine
end

section
/-! PROOF. The KeyCodec's statements (40_keycodec.md): what `EMBED` writes, slot by slot and bit by bit, what
`EXTRACT` reads back, and the lengths at which both run. -/

namespace Sys2Proof.Machine

/-! ### a slot after embedding, and every other byte -/

theorem embedKey_byteAt_slot (s : State) {i : Nat} (hi : i < 8) :
    (embedKey s).byteAt (chanAddr i .blue) = withBit0 (s.byteAt (chanAddr i .blue)) (slotKeyBit s.key i) := by
  rw [embedKey_byteAt, chanAddr_mod, chanAddr_div, if_pos ⟨rfl, hi⟩]

theorem embedKey_byteAt_other (s : State) {a : Nat} (ha : ∀ i, i < 8 → a ≠ chanAddr i .blue) :
    (embedKey s).byteAt a = s.byteAt a :=
  BitVec.eq_of_getLsbD_eq fun _ _ => embedKey_getLsbD_other s (.inr ha)

/-- Slot `i` carries its key bit (40_keycodec.md R70, R74). -/
theorem embedKey_slotBit (s : State) {i : Nat} (hi : i < 8) :
    (embedKey s).slotBit i = slotKeyBit s.key i := by
  rw [State.slotBit, embedKey_byteAt_slot s hi, withBit0_getLsbD, if_pos rfl]

/-- Only a slot bit can change, and it does when the key bit written to it is a new value (40_keycodec.md R73). -/
theorem embedKey_getLsbD_ne_iff (s : State) (a j : Nat) :
    ((embedKey s).byteAt a).getLsbD j ≠ (s.byteAt a).getLsbD j ↔
      ∃ i, i < 8 ∧ a = chanAddr i .blue ∧ j = 0 ∧ (s.byteAt a).getLsbD 0 ≠ slotKeyBit s.key i := by
  have slot {i : Nat} (hi : i < 8) :
      ((embedKey s).byteAt (chanAddr i .blue)).getLsbD 0 = slotKeyBit s.key i := embedKey_slotBit s hi
  constructor
  · intro hne
    have hslot : ¬ (j ≠ 0 ∨ ∀ i, i < 8 → a ≠ chanAddr i .blue) := mt (embedKey_getLsbD_other s) hne
    push Not at hslot
    obtain ⟨rfl, i, hi, rfl⟩ := hslot
    rw [slot hi] at hne
    exact ⟨i, hi, rfl, rfl, hne.symm⟩
  · rintro ⟨i, hi, rfl, rfl, hne⟩
    rw [slot hi]
    exact hne.symm

/-! ### extraction from given slot bits -/

/-- The slot bits alone decide the extracted key, whatever `KEY` holds (40_keycodec.md R72). -/
theorem slotKey_of_slotBit {s : State} {k : Byte} (h : ∀ i < 8, s.slotBit i = slotKeyBit k i) :
    s.slotKey = k :=
  slotKeyBit_ext fun i hi => by rw [slotKeyBit_slotKey s i hi, h i hi]

/-! ### the obligations -/

/-- Settles O36: the body of `EMBED` byte by byte when the check passes, and the check's two faults. -/
theorem embedWritesTheKeyIntoTheSlots : Obligations.EmbedWritesTheKeyIntoTheSlots := by
  refine ⟨rfl, fun s hf => ⟨fun hn h8 => ?result, fun hn => exec_badLength rfl hf hn,
    fun hn h8 => exec_insufficient rfl hf hn h8⟩⟩
  have ready : s.ready 8 := ⟨hf, hn, h8⟩
  exact ⟨embedKey s, exec_ready rfl ready, fun i hi => embedKey_byteAt_slot s hi,
    fun a ha => embedKey_byteAt_other s ha, embedKey_same s⟩

/-- Settles O37: the extracted key bit by bit when the check passes, and the check's two faults. -/
theorem extractReadsTheSlotsIntoKey : Obligations.ExtractReadsTheSlotsIntoKey := by
  refine ⟨rfl, fun s hf => ⟨fun hn h8 => ?result, fun hn => exec_badLength rfl hf hn,
    fun hn h8 => exec_insufficient rfl hf hn h8⟩⟩
  have ready : s.ready 8 := ⟨hf, hn, h8⟩
  exact ⟨s.slotKey, exec_ready rfl ready, slotKeyBit_slotKey s⟩

/-- Settles O38: the later state's slot bits are the key bits `EMBED` left, and they decide what is extracted. -/
theorem embeddedKeyIsExtractedAgain : Obligations.EmbeddedKeyIsExtractedAgain := by
  refine fun s hs => ⟨embedKey s, exec_ready rfl hs, fun u hu kept => ?_⟩
  have slots : ∀ i < 8, u.slotBit i = slotKeyBit s.key i := fun i hi => by
    rw [kept i hi, embedKey_slotBit s hi]
  exact ⟨extractKey u, exec_ready rfl hu, slotKey_of_slotBit slots⟩

/-- Settles O39, by the bits that the body of `EMBED` changes. -/
theorem embeddingIsLocal : Obligations.EmbeddingIsLocal :=
  fun s hs => ⟨embedKey s, exec_ready rfl hs, embedKey_getLsbD_ne_iff s⟩

/-- Settles O40: both commands need 8 pixels, and neither body touches the fault record. -/
theorem eightPixelsSufficeAndSevenDoNot : Obligations.EightPixelsSufficeAndSevenDoNot := by
  intro s i hi hf hn
  have needsEight : minPixels i = some 8 := by rcases hi with rfl | rfl <;> rfl
  have notClrf : i ≠ .clrf := by rcases hi with rfl | rfl <;> decide
  refine ⟨fun h8 => ?suffice, fun h7 => exec_insufficient needsEight hf hn (Nat.lt_succ_of_le h7)⟩
  have ready : s.ready 8 := ⟨hf, hn, by rw [State.seqLen, h8]; decide⟩
  exact ⟨commandBody i s, exec_ready needsEight ready, (commandBody_same notClrf s).fault.trans hf⟩

end Sys2Proof.Machine
end

section
/-! PROOF. The Masker's statements (41_masker.md): what `MASK` writes, that it undoes itself, and that it commutes
with the shuffle, which moves whole pixels, and not with `EMBED`, which writes single bits. -/

namespace Sys2Proof.Machine

/-! ### two commands in a row -/

theorem SameButPixels.symm {s t : State} (h : SameButPixels s t) : SameButPixels t s :=
  ⟨h.key.symm, h.npix.symm, h.fault.symm, h.errcode.symm, h.fcmd.symm, h.cap.symm, h.epoch.symm,
    h.draws.symm, h.pending.symm, h.resp.symm⟩

/-- A command that ran leaves the length check as it was (60_exceptions.md R122). -/
theorem commandBody_ready {i : Instr} (hi : i ≠ .clrf) {s : State} {m : Nat} (hs : s.ready m) :
    (commandBody i s).ready m := by
  have same := commandBody_same hi s
  have hlen : (commandBody i s).seqLen = s.seqLen := congrArg BitVec.toNat same.npix
  have hmax : (commandBody i s).nmax = s.nmax := congrArg BitVec.toNat same.cap
  obtain ⟨hfault, hle, hmin⟩ := hs
  exact ⟨same.fault.trans hfault, by rwa [hlen, hmax], by rwa [hlen]⟩

theorem State.ready.mono {s : State} {m n : Nat} (h : s.ready n) (hmn : m ≤ n) : s.ready m := by
  obtain ⟨hfault, hle, hmin⟩ := h
  exact ⟨hfault, hle, hmn.trans hmin⟩

/-- Two datapath commands that both pass their checks at the start run one body after the other. -/
theorem runCommands_pair_ready {i j : Instr} {m n : Nat} (hi : minPixels i = some m)
    (hj : minPixels j = some n) {s : State} (hm : s.ready m) (hn : s.ready n) :
    runCommands [i, j] s = .next (commandBody j (commandBody i s)) := by
  have notClrf : i ≠ .clrf := by rintro rfl; cases hi
  simp only [runCommands, exec_ready hi hm, exec_ready hj (commandBody_ready notClrf hn)]

/-! ### the mask, channel by channel -/

/-- A channel of the sequence is XORed with `KEY` (41_masker.md R80). -/
theorem maskPixels_byteAt_chanAddr (s : State) {i : Nat} (hi : i < s.seqLen) (c : Channel) :
    (maskPixels s).byteAt (chanAddr i c) = s.byteAt (chanAddr i c) ^^^ s.key := by
  have hdiv := chanAddr_div i c
  rw [maskPixels_byteAt, if_pos (by omega)]

/-- A slot of the sequence is inverted where `KEY[0] = 1` (41_masker.md R82). -/
theorem maskPixels_slotBit (s : State) {i : Nat} (hi : i < s.seqLen) :
    (maskPixels s).slotBit i = (s.slotBit i ^^ s.key.getLsbD 0) := by
  rw [State.slotBit, maskPixels_byteAt_chanAddr s hi, BitVec.getLsbD_xor, ← State.slotBit]

/-- XOR with the same key cancels (41_masker.md R81). -/
theorem maskPixels_maskPixels_sameBytes (s : State) : sameBytes s (maskPixels (maskPixels s)) := by
  intro a
  have same := maskPixels_same s
  rw [maskPixels_byteAt, maskPixels_byteAt, same.seqLen, same.key]
  by_cases ha : a < 3 * s.seqLen
  · rw [if_pos ha, if_pos ha, BitVec.xor_assoc, BitVec.xor_self, BitVec.xor_zero]
  · rw [if_neg ha, if_neg ha]

/-! ### the mask and the shuffle (41_masker.md R82) -/

/-- The permutation depends on `KEY` and `NPIX` alone (42_shuffler.md R90). -/
theorem SameButPixels.permAt {s t : State} (h : SameButPixels s t) (i : Nat) : t.permAt i = s.permAt i := by
  rw [State.permAt, State.permAt, h.key, h.seqLen]

/-- Both orders leave the gathered pixel masked, since every gathered pixel is one of the sequence. -/
theorem maskPixels_permutePixels_sameBytes (s : State) :
    sameBytes (permutePixels (maskPixels s)) (maskPixels (permutePixels s)) := by
  refine sameBytes_iff_pixel.2 fun i => ?_
  have hm := maskPixels_same s
  have hp := permutePixels_same s
  rw [maskPixels_pixel, permutePixels_pixel, permutePixels_pixel, hp.seqLen, hp.key, hm.seqLen, hm.permAt]
  by_cases hi : i < s.seqLen
  · have hsrc : s.permAt i < s.seqLen := genPerm_getD_lt hi
    rw [if_pos hi, if_pos hi, if_pos hi, maskPixels_pixel, if_pos hsrc]
  · rw [if_neg hi, if_neg hi, if_neg hi, maskPixels_pixel, if_neg hi]

/-- Both orders leave the scattered pixel masked: every pixel of the sequence is the target of exactly one. -/
theorem maskPixels_unpermutePixels_sameBytes (s : State) :
    sameBytes (unpermutePixels (maskPixels s)) (maskPixels (unpermutePixels s)) := by
  refine sameBytes_iff_pixel.2 fun q => ?_
  have hm := maskPixels_same s
  have hu := unpermutePixels_same s
  rw [maskPixels_pixel, hu.seqLen, hu.key]
  by_cases hq : q < s.seqLen
  · obtain ⟨i, hi, htarget⟩ : ∃ i, i < s.seqLen ∧ s.permAt i = q := genPerm_getD_surj hq
    have masked : (unpermutePixels (maskPixels s)).pixel q = (maskPixels s).pixel i := by
      rw [← htarget, ← hm.permAt, unpermutePixels_pixel_target _ (by rwa [hm.seqLen])]
    rw [if_pos hq, masked, maskPixels_pixel, if_pos hi, ← htarget, unpermutePixels_pixel_target s hi]
  · have hge := Nat.le_of_not_lt hq
    rw [if_neg hq, unpermutePixels_pixel_beyond s hge,
      unpermutePixels_pixel_beyond _ (by rwa [hm.seqLen]), maskPixels_pixel, if_neg hq]

/-! ### the mask and the slots (41_masker.md R82) -/

theorem embedKey_maskPixels_slotBit (s : State) {j : Nat} (hj : j < 8) :
    (embedKey (maskPixels s)).slotBit j = slotKeyBit s.key j := by
  rw [embedKey_slotBit _ hj, (maskPixels_same s).key]

theorem maskPixels_embedKey_slotBit (s : State) {j : Nat} (hj : j < 8) (hlen : 8 ≤ s.seqLen) :
    (maskPixels (embedKey s)).slotBit j = (slotKeyBit s.key j ^^ s.key.getLsbD 0) := by
  have same := embedKey_same s
  rw [maskPixels_slotBit _ (by rw [same.seqLen]; omega), embedKey_slotBit s hj, same.key]

/-! ### the obligations -/

/-- Settles O26: the body of `MASK` by channel, by pixel and beyond the sequence when the check passes, and the
check's one fault. -/
theorem maskXorsEveryChannelOfTheSequence : Obligations.MaskXorsEveryChannelOfTheSequence := by
  refine ⟨rfl, fun s hf => ⟨fun hn => ?result, fun hn => exec_badLength rfl hf hn⟩⟩
  have ready : s.ready 0 := ⟨hf, hn, Nat.zero_le _⟩
  exact ⟨maskPixels s, exec_ready rfl ready, fun i hi c => maskPixels_byteAt_chanAddr s hi c,
    fun i hi => (maskPixels_pixel s i).trans (if_pos hi), maskPixels_sameBeyond s, maskPixels_same s⟩

/-- Settles O27: both commands run, and the second mask cancels the first. -/
theorem maskTwiceRestoresEveryPixel : Obligations.MaskTwiceRestoresEveryPixel := by
  intro s hf hn
  have ready : s.ready 0 := ⟨hf, hn, Nat.zero_le _⟩
  exact ⟨maskPixels (maskPixels s), runCommands_pair_ready rfl rfl ready ready,
    maskPixels_maskPixels_sameBytes s, (maskPixels_same s).trans (maskPixels_same _)⟩

/-- Settles O28: the shuffle moves masked pixels as it moves any, and the mask inverts the slots written
before it, not those written after it. -/
theorem maskCommutesWithTheShuffleOnly : Obligations.MaskCommutesWithTheShuffleOnly := by
  refine ⟨?shuffle, fun s ready odd => ?embed⟩
  case shuffle =>
    rintro s i (rfl | rfl) ready
    · exact ⟨_, _, runCommands_pair_ready rfl rfl ready ready, runCommands_pair_ready rfl rfl ready ready,
        maskPixels_permutePixels_sameBytes s,
        ((maskPixels_same s).trans (permutePixels_same _)).symm.trans
          ((permutePixels_same s).trans (maskPixels_same _))⟩
    · exact ⟨_, _, runCommands_pair_ready rfl rfl ready ready, runCommands_pair_ready rfl rfl ready ready,
        maskPixels_unpermutePixels_sameBytes s,
        ((maskPixels_same s).trans (unpermutePixels_same _)).symm.trans
          ((unpermutePixels_same s).trans (maskPixels_same _))⟩
  case embed =>
    have ready0 : s.ready 0 := ready.mono (Nat.zero_le 8)
    have hlen : 8 ≤ s.seqLen := ready.2.2
    refine ⟨_, _, runCommands_pair_ready rfl rfl ready0 ready, runCommands_pair_ready rfl rfl ready ready0,
      fun j hj => ⟨embedKey_maskPixels_slotBit s hj, ?_⟩⟩
    have inverted := maskPixels_embedKey_slotBit s hj hlen
    rwa [odd, Bool.xor_true] at inverted

end Sys2Proof.Machine
end

section
/-! PROOF. The Shuffler's statements (42_shuffler.md): the seed and the step of the generator as arithmetic, the
permutation as a bijection, what `PERMUTE` and `UNPERMUTE` move, and that each undoes the other. -/

namespace Sys2Proof.Machine

/-! ### the seed (42_shuffler.md R85) -/

/-- Only the low byte of the constant meets the key. -/
theorem genSeed_eq_append (k : Byte) : genSeed k = 0x9E3779#24 ++ (0xB9#8 ^^^ k) := by
  have hconst : (0x9E37_79B9 : Word) = 0x9E3779#24 ++ 0xB9#8 := rfl
  have hkey : k.setWidth 32 = 0#24 ++ k := BitVec.setWidth_eq_append (by decide)
  rw [genSeed, hconst, hkey, BitVec.xor_append, BitVec.xor_zero]

theorem genSeed_toNat (k : Byte) : (genSeed k).toNat = 0x9E37_7900 + (0xB9#8 ^^^ k).toNat := by
  rw [genSeed_eq_append, BitVec.toNat_append, ← Nat.shiftLeft_add_eq_or_of_lt (0xB9#8 ^^^ k).isLt]
  rfl

theorem genSeed_bounds (k : Byte) : 0x9E37_7900 ≤ (genSeed k).toNat ∧ (genSeed k).toNat ≤ 0x9E37_79FF := by
  have := (0xB9#8 ^^^ k).isLt
  rw [genSeed_toNat]
  omega

theorem genSeed_ne_zero (k : Byte) : genSeed k ≠ 0 := by
  obtain ⟨hlow, -⟩ := genSeed_bounds k
  intro h
  rw [h] at hlow
  exact absurd hlow (by decide)

theorem genSeed_injective : Function.Injective genSeed := by
  intro k k' h
  have hlow : (0xB9#8 ^^^ k).toNat = (0xB9#8 ^^^ k').toNat := by
    have := congrArg BitVec.toNat h
    rw [genSeed_toNat, genSeed_toNat] at this
    omega
  exact (BitVec.xor_right_inj _).1 (BitVec.eq_of_toNat_eq hlow)

/-! ### the generator's step (42_shuffler.md R86) -/

theorem shiftLeft_eq_ofNat_mul {w : Nat} (x : BitVec w) (n : Nat) :
    x <<< n = BitVec.ofNat w (x.toNat * 2 ^ n) :=
  BitVec.eq_of_toNat_eq (by rw [BitVec.toNat_shiftLeft, BitVec.toNat_ofNat, Nat.shiftLeft_eq])

theorem ushiftRight_eq_ofNat_div {w : Nat} (x : BitVec w) (n : Nat) :
    x >>> n = BitVec.ofNat w (x.toNat / 2 ^ n) := by
  have hlt : x.toNat / 2 ^ n < 2 ^ w := (Nat.div_le_self _ _).trans_lt x.isLt
  refine BitVec.eq_of_toNat_eq ?_
  rw [BitVec.toNat_ushiftRight, BitVec.toNat_ofNat, Nat.shiftRight_eq_div_pow, Nat.mod_eq_of_lt hlt]

theorem genNext_eq_zero_iff {s : Word} : genNext s = 0 ↔ s = 0 :=
  ⟨genNext_eq_zero, by rintro rfl; rfl⟩

/-! ### the permutation of short sequences (42_shuffler.md R89) -/

/-- The one step of the loop at length 2 draws the lowest bit. -/
theorem genPerm_two (k : Byte) :
    genPerm k 2 = if (genNext (genSeed k)).toNat % 2 = 0 then [1, 0] else [0, 1] := by
  have hswap : genPerm k 2 = swapCells [0, 1] 1 ((genNext (genSeed k)).toNat % 2) := rfl
  rw [hswap]
  rcases Nat.mod_two_eq_zero_or_one (genNext (genSeed k)).toNat with h | h <;> rw [h] <;> rfl

/-- A bijection on at most one index is the identity. -/
theorem State.permAt_of_seqLen_le_one {s : State} (hn : s.seqLen ≤ 1) {i : Nat} (hi : i < s.seqLen) :
    s.permAt i = i := by
  have : s.permAt i < s.seqLen := genPerm_getD_lt hi
  omega

/-! ### the gather, the scatter and their two compositions (42_shuffler.md R91 to R93) -/

/-- The channel bytes are unchanged when the first `n` pixels and all bytes beyond them are. -/
theorem sameBytes_of_pixel {n : Nat} {s t : State} (below : ∀ i, i < n → t.pixel i = s.pixel i)
    (beyond : sameBeyond n s t) : sameBytes s t := fun a =>
  (Nat.lt_or_ge a (3 * n)).elim (bytes_agree_iff_pixels.2 below a) (beyond a)

theorem permutePixels_pixel_lt (s : State) {i : Nat} (hi : i < s.seqLen) :
    (permutePixels s).pixel i = s.pixel (s.permAt i) := by
  rw [permutePixels_pixel, if_pos hi]

theorem permutePixels_sameBytes_of_le_one {s : State} (hn : s.seqLen ≤ 1) : sameBytes s (permutePixels s) := by
  refine sameBytes_of_pixel (fun i hi => ?_) (permutePixels_sameBeyond s)
  rw [permutePixels_pixel_lt s hi, State.permAt_of_seqLen_le_one hn hi]

theorem unpermutePixels_sameBytes_of_le_one {s : State} (hn : s.seqLen ≤ 1) :
    sameBytes s (unpermutePixels s) := by
  refine sameBytes_of_pixel (fun i hi => ?_) (unpermutePixels_sameBeyond s)
  have target := unpermutePixels_pixel_target s hi
  rwa [State.permAt_of_seqLen_le_one hn hi] at target

/-- The gather rearranges the pixels of the sequence. -/
theorem permutePixels_pixels_perm (s : State) :
    ((List.range s.seqLen).map (permutePixels s).pixel).Perm ((List.range s.seqLen).map s.pixel) := by
  have gathered : (List.range s.seqLen).map (permutePixels s).pixel =
      (List.range s.seqLen).map fun i => s.pixel (s.permAt i) :=
    List.map_congr_left fun i hi => permutePixels_pixel_lt s (List.mem_range.1 hi)
  rw [gathered]
  exact map_genPerm_perm s.key s.seqLen s.pixel

/-- Every position is the target of one gathered pixel, and the scatter writes that pixel back to it. -/
theorem unpermutePixels_permutePixels_sameBytes (s : State) :
    sameBytes s (unpermutePixels (permutePixels s)) := by
  have same := permutePixels_same s
  have beyond := unpermutePixels_sameBeyond (permutePixels s)
  rw [same.seqLen] at beyond
  refine sameBytes_of_pixel (fun q hq => ?_) ((permutePixels_sameBeyond s).trans beyond)
  obtain ⟨i, hi, htarget⟩ : ∃ i, i < s.seqLen ∧ s.permAt i = q := genPerm_getD_surj hq
  calc (unpermutePixels (permutePixels s)).pixel q
      = (unpermutePixels (permutePixels s)).pixel ((permutePixels s).permAt i) := by
        rw [same.permAt, htarget]
    _ = (permutePixels s).pixel i := unpermutePixels_pixel_target _ (by rwa [same.seqLen])
    _ = s.pixel q := by rw [permutePixels_pixel_lt s hi, htarget]

/-- The gather fetches each pixel from where the scatter has put it. -/
theorem permutePixels_unpermutePixels_sameBytes (s : State) :
    sameBytes s (permutePixels (unpermutePixels s)) := by
  have same := unpermutePixels_same s
  have beyond := permutePixels_sameBeyond (unpermutePixels s)
  rw [same.seqLen] at beyond
  refine sameBytes_of_pixel (fun i hi => ?_) ((unpermutePixels_sameBeyond s).trans beyond)
  calc (permutePixels (unpermutePixels s)).pixel i
      = (unpermutePixels s).pixel ((unpermutePixels s).permAt i) :=
        permutePixels_pixel_lt _ (by rwa [same.seqLen])
    _ = (unpermutePixels s).pixel (s.permAt i) := by rw [same.permAt]
    _ = s.pixel i := unpermutePixels_pixel_target s hi

/-! ### the obligations -/

/-- Settles O30: the shifts as arithmetic on naturals, and 0 only from 0 because each of the three steps
sends only 0 to 0. -/
theorem generatorStepMapsNonzeroToNonzero : Obligations.GeneratorStepMapsNonzeroToNonzero := by
  refine ⟨fun s => ⟨_, _, rfl, rfl, ?_⟩, fun _ => genNext_eq_zero_iff, rfl, rfl, rfl, rfl⟩
  simp only [genNext, shiftLeft_eq_ofNat_mul, ushiftRight_eq_ofNat_div]

/-- Settles O31: `GenPerm` is a rearrangement of the list `0, …, n - 1`. -/
theorem permutationIsABijection : Obligations.PermutationIsABijection := by
  refine fun k n => ⟨genPerm_length k n, fun _ hi => genPerm_getD_lt hi, fun q hq => ?_⟩
  obtain ⟨i, hi, rfl⟩ := genPerm_getD_surj (k := k) hq
  exact ⟨i, ⟨hi, rfl⟩, fun j hj => genPerm_getD_inj hj hi⟩

/-- Settles O33: the gather when the check passes, and the check's one fault. -/
theorem permuteGathersThroughThePermutation : Obligations.PermuteGathersThroughThePermutation := by
  refine ⟨rfl, fun s hf => ⟨fun hn => ?result, fun hn => exec_badLength rfl hf hn⟩⟩
  have ready : s.ready 0 := ⟨hf, hn, Nat.zero_le _⟩
  exact ⟨permutePixels s, exec_ready rfl ready, fun _ hi => permutePixels_pixel_lt s hi,
    permutePixels_pixels_perm s, permutePixels_sameBytes_of_le_one, permutePixels_sameBeyond s,
    permutePixels_same s⟩

/-- Settles O34: the scatter when the check passes, and the check's one fault. -/
theorem unpermuteScattersThroughThePermutation : Obligations.UnpermuteScattersThroughThePermutation := by
  refine ⟨rfl, fun s hf => ⟨fun hn => ?result, fun hn => exec_badLength rfl hf hn⟩⟩
  have ready : s.ready 0 := ⟨hf, hn, Nat.zero_le _⟩
  exact ⟨unpermutePixels s, exec_ready rfl ready, fun _ hi => unpermutePixels_pixel_target s hi,
    unpermutePixels_sameBytes_of_le_one, unpermutePixels_sameBeyond s, unpermutePixels_same s⟩

/-- Settles O35: both commands run in either order, under one permutation, since neither changes `KEY` or
`NPIX`. -/
theorem unpermuteUndoesPermute : Obligations.UnpermuteUndoesPermute := by
  intro s hf hn
  have ready : s.ready 0 := ⟨hf, hn, Nat.zero_le _⟩
  exact ⟨⟨_, runCommands_pair_ready rfl rfl ready ready, unpermutePixels_permutePixels_sameBytes s,
      (permutePixels_same s).trans (unpermutePixels_same _)⟩,
    ⟨_, runCommands_pair_ready rfl rfl ready ready, permutePixels_unpermutePixels_sameBytes s,
      (unpermutePixels_same s).trans (permutePixels_same _)⟩⟩

/-- Settles O29: the seed is a constant above the key's byte. -/
theorem seedsAreNonzeroAndDistinct : Obligations.SeedsAreNonzeroAndDistinct := by
  refine ⟨fun k => ?range, fun _ _ h => genSeed_injective h, rfl, rfl, rfl⟩
  obtain ⟨hlow, hhigh⟩ := genSeed_bounds k
  exact ⟨rfl, hlow, hhigh, genSeed_ne_zero k⟩

/-- Settles O32: no loop step at lengths 0 and 1, one at length 2, and the table by evaluation. -/
theorem referencePermutations : Obligations.ReferencePermutations :=
  ⟨fun _ => rfl, fun _ => rfl, genPerm_two, by decide, by decide, by decide, by decide, by decide, by decide,
    by decide, by decide, by decide⟩

end Sys2Proof.Machine
end

section
/-! PROOF. The Transform's statements (43_transform.md): `GENKEY`, `ENCRYPT` and `DECRYPT` in closed form, the two
composites against their stages, and the round trip with the 8 bits it does not restore. -/

namespace Sys2Proof.Machine

/-! ### sequences of commands -/

theorem minPixels_le_eight {i : Instr} {m : Nat} (h : minPixels i = some m) : m ≤ 8 := by
  cases i <;> cases h <;> decide

/-- With a length every check accepts, each command but `CLRF` runs (60_exceptions.md R122). -/
theorem exec_ready_eight {i : Instr} (hi : i ≠ .clrf) {s : State} (hs : s.ready 8) :
    exec i s = .next (commandBody i s) := by
  cases hm : minPixels i with
  | some m => exact exec_ready hm (hs.mono (minPixels_le_eight hm))
  | none =>
    cases i <;> simp only [minPixels, reduceCtorEq] at hm
    case nop => exact exec_nop s
    case genkey => exact exec_genkey hs.1
    case clrf => exact absurd rfl hi

/-- No command but `CLRF` disturbs the next one's check, so the bodies run one after the other. -/
theorem runCommands_ready_eight {l : List Instr} (hl : .clrf ∉ l) {s : State} (hs : s.ready 8) :
    runCommands l s = .next (l.foldl (fun t i => commandBody i t) s) := by
  induction l generalizing s with
  | nil => rfl
  | cons i l ih =>
    obtain ⟨hi, hl⟩ := List.ne_and_not_mem_of_not_mem_cons hl
    rw [runCommands, exec_ready_eight hi.symm hs]
    exact ih hl (commandBody_ready hi.symm hs)

/-- Under a latched fault a sequence without `CLRF` is ignored whole (60_exceptions.md R126). -/
theorem runCommands_latched {l : List Instr} (hl : .clrf ∉ l) {s : State} (hs : s.fault = true) :
    runCommands l s = .next s := by
  induction l with
  | nil => rfl
  | cons i l ih =>
    obtain ⟨hi, hl⟩ := List.ne_and_not_mem_of_not_mem_cons hl
    rw [runCommands, exec_latched hi.symm hs]
    exact ih hl

/-- The four slot commands reject a length for one and the same cause (60_exceptions.md R122, R127). -/
theorem exists_cause_of_rejected_length {s : State} (hf : s.fault = false)
    (hlen : s.seqLen < 8 ∨ s.nmax < s.seqLen) :
    ∃ e, ∀ i, minPixels i = some 8 → exec i s = .next (raise e (encode i) s) := by
  by_cases hn : s.nmax < s.seqLen
  · exact ⟨.badLength, fun i hi => exec_badLength hi hf hn⟩
  · exact ⟨.insufficientPixels, fun i hi =>
      exec_insufficient hi hf (Nat.le_of_not_lt hn) (hlen.resolve_right hn)⟩

/-- The length check looks at the fault, `NPIX` and `CAP` alone (60_exceptions.md R122). -/
theorem State.ready.of_eq {s u : State} {m : Nat} (hs : s.ready m) (hfault : u.fault = false)
    (hnpix : u.npix = s.npix) (hcap : u.cap = s.cap) : u.ready m := by
  obtain ⟨-, hle, hmin⟩ := hs
  exact ⟨hfault, by rwa [State.seqLen, State.nmax, hnpix, hcap], by rwa [State.seqLen, hnpix]⟩

/-! ### the draw (43_transform.md R100) -/

theorem keyDraw_toNat (n : Nat) : (keyDraw n).toNat = (Config.keySource n).val + 1 := by
  rw [keyDraw, BitVec.toNat_ofNat, Nat.mod_eq_of_lt]
  omega

/-! ### masked, permuted, embedded (43_transform.md R101) -/

/-- The stages of `ENCRYPT` after the draw, which are also the commands `MASK` ; `PERMUTE` ; `EMBED`. -/
def maskPermuteEmbed (s : State) : State := embedKey (permutePixels (maskPixels s))

theorem encryptPixels_eq (s : State) : encryptPixels s = maskPermuteEmbed (drawKey s) := rfl

theorem runCommands_mask_permute_embed {s : State} (hs : s.ready 8) :
    runCommands [.mask, .permute, .embed] s = .next (maskPermuteEmbed s) :=
  runCommands_ready_eight (by decide) hs

theorem maskPermuteEmbed_same (s : State) : SameButPixels s (maskPermuteEmbed s) :=
  ((maskPixels_same s).trans (permutePixels_same _)).trans (embedKey_same _)

/-- The gather fetches a masked pixel of the sequence, and the first 8 places get their key bit. -/
theorem maskPermuteEmbed_pixel (s : State) {i : Nat} (hi : i < s.seqLen) :
    (maskPermuteEmbed s).pixel i =
      if i < 8 then withBlueBit0 (s.pixel (s.permAt i) ^^^ keyMask s.key) (slotKeyBit s.key i)
      else s.pixel (s.permAt i) ^^^ keyMask s.key := by
  have hm := maskPixels_same s
  have hp := hm.trans (permutePixels_same _)
  have hsrc : s.permAt i < s.seqLen := genPerm_getD_lt hi
  have gathered : (permutePixels (maskPixels s)).pixel i = s.pixel (s.permAt i) ^^^ keyMask s.key := by
    rw [permutePixels_pixel_lt _ (by rwa [hm.seqLen]), hm.permAt, maskPixels_pixel, if_pos hsrc]
  rw [maskPermuteEmbed, embedKey_pixel, gathered, hp.key]

theorem maskPermuteEmbed_slotBit (s : State) {i : Nat} (hi : i < 8) :
    (maskPermuteEmbed s).slotBit i = slotKeyBit s.key i := by
  have same := (maskPixels_same s).trans (permutePixels_same _)
  rw [maskPermuteEmbed, embedKey_slotBit _ hi, same.key]

theorem embedSlots_setDraws (l : List Nat) (s : State) (d : Nat) :
    embedSlots l { s with draws := d } = { embedSlots l s with draws := d } := by
  induction l generalizing s with
  | nil => rfl
  | cons i l ih => exact ih (s.setByte (chanAddr i .blue) _)

/-- The stages after the draw do not look at the draws. -/
theorem maskPermuteEmbed_setDraws (s : State) (d : Nat) :
    maskPermuteEmbed { s with draws := d } = { maskPermuteEmbed s with draws := d } :=
  embedSlots_setDraws _ (permutePixels (maskPixels s)) d

/-! ### extracted, scattered, unmasked (43_transform.md R103) -/

theorem runCommands_extract_unpermute_mask {s : State} (hs : s.ready 8) :
    runCommands [.extract, .unpermute, .mask] s = .next (decryptPixels s) :=
  runCommands_ready_eight (by decide) hs

theorem decryptPixels_key (s : State) : (decryptPixels s).key = s.slotKey := (decryptPixels_same s).key

/-- Each pixel goes to its place under the extracted key's permutation, and is masked there. -/
theorem decryptPixels_pixel_target (s : State) {i : Nat} (hi : i < s.seqLen) :
    (decryptPixels s).pixel ((genPerm s.slotKey s.seqLen).getD i 0) = s.pixel i ^^^ keyMask s.slotKey := by
  have same := unpermutePixels_same (extractKey s)
  have htarget : (genPerm s.slotKey s.seqLen).getD i 0 < s.seqLen := genPerm_getD_lt hi
  have scattered : (unpermutePixels (extractKey s)).pixel ((genPerm s.slotKey s.seqLen).getD i 0) =
      s.pixel i := unpermutePixels_pixel_target (extractKey s) hi
  rw [decryptPixels, maskPixels_pixel, same.seqLen, same.key, extractKey_seqLen, extractKey_key,
    if_pos htarget, scattered]

/-! ### the round trip (43_transform.md R105) -/

theorem xor_keyMask_xor_keyMask (p : Pixel) (k : Byte) : p ^^^ keyMask k ^^^ keyMask k = p := by
  rw [BitVec.xor_assoc, BitVec.xor_self, BitVec.xor_zero]

theorem keyMask_getLsbD_zero (k : Byte) : (keyMask k).getLsbD 0 = k.getLsbD 0 := pixel_getLsbD k k k 0

/-- The second mask restores every bit but the embedded one, which it inverts where `k[0] = 1`. -/
theorem withBlueBit0_xor_keyMask (p : Pixel) (k : Byte) (b : Bool) :
    withBlueBit0 (p ^^^ keyMask k) b ^^^ keyMask k = withBlueBit0 p (b ^^ k.getLsbD 0) := by
  apply BitVec.eq_of_getLsbD_eq
  intro j _
  rw [BitVec.getLsbD_xor, withBlueBit0_getLsbD, withBlueBit0_getLsbD]
  by_cases hj : j = 0
  · rw [if_pos hj, if_pos hj, hj, keyMask_getLsbD_zero]
  · rw [if_neg hj, if_neg hj, ← BitVec.getLsbD_xor, xor_keyMask_xor_keyMask]

/-- `DECRYPT` finds the embedded key in the slots, so it undoes the gather and the mask with it. -/
theorem decryptPixels_restores {s u : State} (h8 : 8 ≤ s.seqLen) (hlen : u.seqLen = s.seqLen)
    (hpix : ∀ i, i < s.seqLen → u.pixel i = (maskPermuteEmbed s).pixel i) :
    RestoredButSlots s.seqLen s.key s (decryptPixels u) := by
  have hkey : u.slotKey = s.key := slotKey_of_slotBit fun i hi => by
    rw [State.slotBit_eq, hpix i (by omega), ← State.slotBit_eq, maskPermuteEmbed_slotBit s hi]
  have back {i : Nat} (hi : i < s.seqLen) : (decryptPixels u).pixel ((genPerm s.key s.seqLen).getD i 0) =
      (maskPermuteEmbed s).pixel i ^^^ keyMask s.key := by
    have target := decryptPixels_pixel_target u (hlen ▸ hi)
    rwa [hkey, hlen, hpix i hi] at target
  refine ⟨(decryptPixels_key u).trans hkey, fun q hq hslots => ?others, fun i hi => ?slots⟩
  case others =>
    obtain ⟨i, hi, rfl⟩ := genPerm_getD_surj (k := s.key) hq
    have notSlot : ¬ i < 8 := fun h => hslots i h rfl
    rw [back hi, maskPermuteEmbed_pixel s hi, if_neg notSlot]
    exact xor_keyMask_xor_keyMask _ _
  case slots =>
    have hlt : i < s.seqLen := by omega
    rw [back hlt, maskPermuteEmbed_pixel s hlt, if_pos hi]
    exact withBlueBit0_xor_keyMask _ _ _

/-! ### the obligations -/

/-- Settles O42: the stages after the draw pixel by pixel when the check passes, and the check's two faults. -/
theorem encryptMasksPermutesAndEmbeds : Obligations.EncryptMasksPermutesAndEmbeds := by
  refine ⟨rfl, fun s hf => ⟨fun hn h8 => ?result, fun hn => exec_badLength rfl hf hn,
    fun hn h8 => exec_insufficient rfl hf hn h8⟩⟩
  have ready : s.ready 8 := ⟨hf, hn, h8⟩
  have same := encryptPixels_same s
  refine ⟨encryptPixels s, _, exec_ready rfl ready, rfl, same.key, same.draws, fun i h8i hi => ?_,
    fun i hi => ?_, encryptPixels_sameBeyond h8, commandBody_same (i := .encrypt) (by decide) s⟩
  · exact (maskPermuteEmbed_pixel (drawKey s) hi).trans (if_neg (Nat.not_lt.2 h8i))
  · exact (maskPermuteEmbed_pixel (drawKey s) (hi.trans_le h8)).trans (if_pos hi)

/-- Settles O43: the bodies of the four commands are the stages, and the last three do not look at the draws. -/
theorem encryptEqualsItsStages : Obligations.EncryptEqualsItsStages := by
  intro s hs
  have composite : exec .encrypt s = .next (encryptPixels s) := exec_ready rfl hs
  have hdraw : encryptPixels s =
      { maskPermuteEmbed { s with key := keyDraw s.draws } with draws := s.draws + 1 } :=
    (encryptPixels_eq s).trans (maskPermuteEmbed_setDraws { s with key := keyDraw s.draws } (s.draws + 1))
  refine ⟨(runCommands_ready_eight (by decide) hs).trans composite.symm, _, _, composite,
    runCommands_mask_permute_embed hs, ?_⟩
  rw [hdraw]
  exact ⟨rfl, fun _ => rfl⟩

/-- Settles O44: the extracted key bit by bit and the scattered pixels when the check passes, and the check's two
faults. -/
theorem decryptExtractsUnpermutesAndUnmasks : Obligations.DecryptExtractsUnpermutesAndUnmasks := by
  refine ⟨rfl, fun s hf => ⟨fun hn h8 => ?result, fun hn => exec_badLength rfl hf hn,
    fun hn h8 => exec_insufficient rfl hf hn h8⟩⟩
  have ready : s.ready 8 := ⟨hf, hn, h8⟩
  exact ⟨decryptPixels s, s.slotKey, exec_ready rfl ready, decryptPixels_key s, slotKeyBit_slotKey s,
    fun i hi => decryptPixels_pixel_target s hi, decryptPixels_sameBeyond s,
    commandBody_same (i := .decrypt) (by decide) s, (decryptPixels_same s).draws⟩

/-- Settles O45: the bodies of the three commands are the stages; with a bad length `EXTRACT` raises what `DECRYPT`
does, and the other two are ignored. -/
theorem decryptEqualsItsStages : Obligations.DecryptEqualsItsStages := by
  refine ⟨fun s hs => ?good, fun s hf hlen => ?bad⟩
  case good => exact (runCommands_extract_unpermute_mask hs).trans (exec_ready (i := .decrypt) rfl hs).symm
  case bad =>
    obtain ⟨e, raised⟩ := exists_cause_of_rejected_length hf hlen
    refine ⟨e.code, raised .decrypt rfl, ?_⟩
    rw [runCommands, raised .extract rfl]
    exact runCommands_latched (by decide) (raise_fault s e _)

/-- Settles O46: both ways leave the stages' pixels, and both ways back are the body of `DECRYPT`. -/
theorem roundTripRestoresAllButEightBits : Obligations.RoundTripRestoresAllButEightBits := by
  intro s hs
  have h8 : 8 ≤ s.seqLen := hs.2.2
  refine ⟨⟨encryptPixels s, exec_ready rfl hs, fun u hfault hnpix hcap hbytes => ?composite⟩,
    ⟨maskPermuteEmbed s, runCommands_mask_permute_embed hs, fun u hfault hnpix hcap hbytes => ?stages⟩⟩
  case composite =>
    have same := encryptPixels_same s
    have hu : u.ready 8 := hs.of_eq hfault (hnpix.trans same.npix) (hcap.trans same.cap)
    have restored := decryptPixels_restores (s := drawKey s) h8
      (congrArg BitVec.toNat (hnpix.trans same.npix)) (bytes_agree_iff_pixels.1 hbytes)
    exact ⟨decryptPixels u, exec_ready rfl hu, restored.key, restored.others, restored.slots⟩
  case stages =>
    have same := maskPermuteEmbed_same s
    have hu : u.ready 8 := hs.of_eq hfault (hnpix.trans same.npix) (hcap.trans same.cap)
    exact ⟨decryptPixels u, runCommands_extract_unpermute_mask hu, decryptPixels_restores h8
      (congrArg BitVec.toNat (hnpix.trans same.npix)) (bytes_agree_iff_pixels.1 hbytes)⟩

/-- Settles O47: neither body looks at the key's value to raise a fault, and the mask of key 0 changes nothing. -/
theorem decryptAcceptsEveryKey : Obligations.DecryptAcceptsEveryKey := by
  refine fun s hs => ⟨?accepted, fun zeros => ?zero⟩
  case accepted =>
    rintro i (rfl | rfl)
    · exact ⟨extractKey s, exec_ready rfl hs, hs.1, slotKeyBit_slotKey s⟩
    · refine ⟨decryptPixels s, exec_ready rfl hs, (decryptPixels_same s).fault.trans hs.1, ?_⟩
      rw [decryptPixels_key]
      exact slotKeyBit_slotKey s
  case zero =>
    have hkey : s.slotKey = 0 := slotKey_of_slotBit fun i hi => by
      rw [zeros i hi, slotKeyBit, BitVec.ofNat_eq_ofNat, BitVec.getLsbD_zero]
    refine ⟨decryptPixels s, exec_ready rfl hs, (decryptPixels_key s).trans hkey, fun i hi => ?_⟩
    have target := decryptPixels_pixel_target s hi
    rw [hkey] at target
    exact target.trans BitVec.xor_zero

/-- Settles O41: the body of `GENKEY` is the draw, which adds 1 to a number below 255. -/
theorem genkeyLoadsADrawnKey : Obligations.GenkeyLoadsADrawnKey := by
  refine ⟨rfl, fun s hf => ⟨exec_genkey hf, ?_⟩⟩
  have := (Config.keySource s.draws).isLt
  rw [keyDraw_toNat]
  omega

end Sys2Proof.Machine
end

section
/-! PROOF. The system commands' statements (44_system.md): `NOP`, and `CLRF` as the return from a fault with the
words beside it that are not `CLRF`. -/

namespace Sys2Proof.Machine

/-! ### the return from a fault (44_system.md R111) -/

/-- A consistent record with no fault latched is already the cleared one (10_state.md R16). -/
theorem State.faultRecordLegal.record_eq_clear {s : State} (hs : s.faultRecordLegal) (hf : s.fault = false) :
    s.record = clearRecord := by
  obtain ⟨hcode, hfcmd⟩ := hs
  have herrcode : s.errcode = 0 := not_not.1 (mt hcode.2 (by simp [hf]))
  exact State.record_eq_iff.2 ⟨hf, herrcode, hfcmd hf⟩

/-- The return from a fault writes the record alone, so that a cleared one stays as it is. -/
theorem clearFault_eq_self {s : State} (h : s.record = clearRecord) : clearFault s = s := by
  obtain ⟨hfault, herrcode, hfcmd⟩ := State.record_eq_iff.1 h
  rw [clearFault, ← hfault, ← herrcode, ← hfcmd]

/-- `CLRF` is matched on all 32 bits: its reserved bits are 0 (30_encoding.md R52). -/
theorem ne_encode_clrf_of_reserved {w : Word} (h : w.extractLsb' 8 24 ≠ 0) : w ≠ encode .clrf := by
  rintro rfl
  exact h (by decide)

/-! ### the obligations -/

/-- Settles O24: the word by evaluation, and the effect by the command's own equation, latched or not. -/
theorem nopChangesNothing : Obligations.NopChangesNothing :=
  ⟨rfl, exec_nop⟩

/-- Settles O25: `CLRF` is the return from a fault, which leaves a cleared record alone; a word with reserved bits is
not `CLRF`, so that a latched fault makes `Dispatch(w)` ignore it. -/
theorem clrfReturnsFromAFault : Obligations.ClrfReturnsFromAFault := by
  refine ⟨rfl, exec_clrf, fun s hs hf => ?unlatched, fun s w hf _ hrsv => ?reserved⟩
  case unlatched => rw [exec_clrf, clearFault_eq_self (hs.record_eq_clear hf)]
  case reserved => exact dispatch_latched (ne_encode_clrf_of_reserved hrsv) hf

end Sys2Proof.Machine
end

section
/-! PROOF. The faults' statements (60_exceptions.md): the operand check test by test, which command raises which
fault, and what the host port still does while a fault is latched. -/

namespace Sys2Proof.Machine

/-! ### the operand check (60_exceptions.md R122) -/

/-- The check looks at the length alone, so that it also passes a length under a latched fault; `checkLen_pass` is
the case of a command that is not ignored. -/
theorem checkLen_accepted {min : Nat} {s : State} (hle : s.seqLen ≤ s.nmax) (hmin : min ≤ s.seqLen) (w : Word)
    (body : State → State) : checkLen min w s body = body s := by
  rw [checkLen, if_neg (Nat.not_lt.2 hle), if_neg (Nat.not_lt.2 hmin)]

/-- A capacity below the minimum leaves no length that passes. -/
theorem checkLen_fault_of_nmax_lt {min : Nat} {s : State} (h : s.nmax < min) (w : Word) (body : State → State) :
    (checkLen min w s body).fault = true := by
  by_cases hn : s.nmax < s.seqLen
  · rw [checkLen_badLength hn, raise_fault]
  · have hle : s.seqLen ≤ s.nmax := Nat.le_of_not_lt hn
    rw [checkLen_insufficient hle (hle.trans_lt h), raise_fault]

/-! ### the commands by what they ask for (60_exceptions.md R123, R124) -/

theorem minPixels_eq_eight_iff {i : Instr} :
    minPixels i = some 8 ↔ i ∈ [Instr.embed, .extract, .encrypt, .decrypt] := by
  cases i <;> decide

theorem minPixels_eq_zero_iff {i : Instr} :
    minPixels i = some 0 ↔ i ∈ [Instr.mask, .permute, .unpermute] := by
  cases i <;> decide

theorem minPixels_eq_none_iff {i : Instr} : minPixels i = none ↔ i ∈ [Instr.nop, .genkey, .clrf] := by
  cases i <;> decide

/-- The datapath commands are the three that take any length and the four that use the slots. -/
theorem exists_minPixels_of_datapath {i : Instr}
    (hi : i ∈ [Instr.mask, .permute, .unpermute] ++ [Instr.embed, .extract, .encrypt, .decrypt]) :
    ∃ m, minPixels i = some m := by
  rcases List.mem_append.1 hi with hi | hi
  · exact ⟨0, minPixels_eq_zero_iff.2 hi⟩
  · exact ⟨8, minPixels_eq_eight_iff.2 hi⟩

/-! ### a command that is admitted raises nothing -/

theorem State.admits_of_ready {i : Instr} {m : Nat} (hm : minPixels i = some m) {s : State} (hs : s.ready m) :
    s.admits i :=
  ⟨hs.1, fun _ hn => Option.some.inj (hm.symm.trans hn) ▸ hs⟩

theorem State.admits_of_unchecked {i : Instr} (hm : minPixels i = none) {s : State} (hf : s.fault = false) :
    s.admits i :=
  ⟨hf, fun _ hn => nomatch hm.symm.trans hn⟩

theorem exec_admitted {i : Instr} {s : State} (hs : s.admits i) : exec i s = .next (commandBody i s) := by
  obtain ⟨hf, hready⟩ := hs
  cases hm : minPixels i with
  | some m => exact exec_ready hm (hready m hm)
  | none =>
    cases i <;> simp only [minPixels, reduceCtorEq] at hm
    case nop => exact exec_nop s
    case genkey => exact exec_genkey hf
    case clrf => exact exec_clrf s

theorem commandBody_fault (i : Instr) {s : State} (hf : s.fault = false) : (commandBody i s).fault = false := by
  by_cases hi : i = .clrf
  · subst hi
    exact clearFault_fault s
  · exact (commandBody_same hi s).fault.trans hf

theorem exec_admitted_fault {i : Instr} {s : State} (hs : s.admits i) :
    ∃ t, exec i s = .next t ∧ t.fault = false :=
  ⟨_, exec_admitted hs, commandBody_fault i hs.1⟩

/-! ### the port under a latched fault (60_exceptions.md R126) -/

theorem State.writeReg_setFault (s : State) (v : Word) (r : Reg) (b : Bool) :
    State.writeReg { s with fault := b } v r = { s.writeReg v r with fault := b } := by
  cases r <;> rfl

/-- A write elsewhere than to `CMD` does the same whether a fault is latched or not. -/
theorem memWrite_setFault {a : PortAddr} (ha : byteOffset a ≠ regOffset .cmd) (v : Word) (s : State) :
    ∃ t : State, ∀ b, memWrite a v { s with fault := b } = .next { t with fault := b } := by
  rcases target_cases s.nmax a with ⟨r, hr, -⟩ | ⟨i, hi, hpix, -⟩ | ⟨-, -, h⟩
  · have hcmd : r ≠ .cmd := by
      rintro rfl
      exact ha hr
    exact ⟨s.writeReg v r, fun b => by rw [memWrite_reg hr hcmd, State.writeReg_setFault]⟩
  · exact ⟨s.setPixel i (v.setWidth 24), fun b => memWrite_pix (s := { s with fault := b }) hi hpix v⟩
  · exact ⟨s, fun b => memWrite_unmapped (s := { s with fault := b }) h v⟩

theorem memRead_reg {a : PortAddr} {r : Reg} (ha : byteOffset a = regOffset r) (s : State) :
    memRead a s = some (s.regWord r) := by
  rw [memRead, target_of_reg ha]
  cases r <;> rfl

theorem memRead_pix {a : PortAddr} {i : Nat} {s : State} (hi : i < s.nmax)
    (ha : byteOffset a = pixBase + 4 * i) : memRead a s = some ((s.pixel i).setWidth 32) := by
  simp only [memRead, target_of_pix hi ha]

theorem memRead_unmapped {a : PortAddr} {s : State} (h : target s.nmax a = .unmapped) : memRead a s = none := by
  simp only [memRead, h]

theorem State.regWord_setFault (s : State) {r : Reg} (hr : r ≠ .status) (b : Bool) :
    State.regWord { s with fault := b } r = s.regWord r := by
  cases r with
  | status => exact absurd rfl hr
  | cmd | key | npix | cap | fcmd => rfl

/-- A read elsewhere than of `STATUS` returns the same whether a fault is latched or not. -/
theorem memRead_setFault {a : PortAddr} (ha : byteOffset a ≠ regOffset .status) (s : State) (b : Bool) :
    memRead a { s with fault := b } = memRead a s := by
  rcases target_cases s.nmax a with ⟨r, hr, -⟩ | ⟨i, hi, hpix, -⟩ | ⟨-, -, h⟩
  · have hstatus : r ≠ .status := by
      rintro rfl
      exact ha hr
    rw [memRead_reg hr, memRead_reg hr, State.regWord_setFault s hstatus]
  · rw [memRead_pix hi hpix]
    exact memRead_pix (s := { s with fault := b }) hi hpix
  · rw [memRead_unmapped h]
    exact memRead_unmapped (s := { s with fault := b }) h

/-- The port acknowledges a command that a latched fault makes the engine ignore (20_memory.md R32). -/
theorem step_command_latched {s : State} {a : PortAddr} {w : Word} {rest : List HostEvent}
    (hp : s.pending = .tx (.write a w) :: rest) (ha : byteOffset a = regOffset .cmd) (hw : w ≠ encode .clrf)
    (hf : s.fault = true) : step s = .next { s with pending := rest, resp := some .okWrite } := by
  have ignored : memWrite a w { s with pending := rest } = .next { s with pending := rest } :=
    (memWrite_cmd ha w _).trans (dispatch_latched hw hf)
  rw [step_write hp ignored, writeResponse_reg ha]

/-! ### the obligations -/

/-- Settles O21: a datapath command fails its check for the cause the length gives, and a command that is admitted
keeps the fault clear. -/
theorem commandsRaiseExactlyTheListedFaults : Obligations.CommandsRaiseExactlyTheListedFaults := by
  intro i s hf
  refine ⟨fun hi hn => ?badLength, fun hi hle hlt => ?insufficient, fun hi hle h8 => ?slots,
    fun hi hle => ?anyLength, fun hi => ?unchecked⟩
  case badLength =>
    obtain ⟨m, hm⟩ := exists_minPixels_of_datapath hi
    exact exec_badLength hm hf hn
  case insufficient => exact exec_insufficient (minPixels_eq_eight_iff.2 hi) hf hle hlt
  case slots => exact exec_admitted_fault (State.admits_of_ready (minPixels_eq_eight_iff.2 hi) ⟨hf, hle, h8⟩)
  case anyLength =>
    exact exec_admitted_fault (State.admits_of_ready (minPixels_eq_zero_iff.2 hi) ⟨hf, hle, Nat.zero_le _⟩)
  case unchecked => exact exec_admitted_fault (State.admits_of_unchecked (minPixels_eq_none_iff.2 hi) hf)

/-- Settles O22: the command is ignored and acknowledged, and `FAULT` plays no part in the other transactions. -/
theorem latchedFaultIgnoresCommands : Obligations.LatchedFaultIgnoresCommands := by
  refine ⟨fun s a w rest hf hw hp ha => step_command_latched hp ha hw hf, fun s a v ha => ?write,
    fun s a ha => ?read⟩
  case write =>
    obtain ⟨t, ht⟩ := memWrite_setFault ha v s
    exact ⟨{ t with fault := false }, ht false, ht true⟩
  case read => exact (memRead_setFault ha s true).trans (memRead_setFault ha s false).symm

/-- Settles O20, by the outcome of each test of the check. -/
theorem lengthCheckFollowsTheRule : Obligations.LengthCheckFollowsTheRule := by
  intro min w s body
  refine ⟨fun hn => ?badLength, fun hle hlt => ?insufficient, fun hle hmin => ?accepted, fun hle => ?noMinimum,
    fun h8 => ?smallCapacity⟩
  case badLength => exact checkLen_badLength hn min w body
  case insufficient => exact checkLen_insufficient hle hlt w body
  case accepted => exact checkLen_accepted hle hmin w body
  case noMinimum => exact checkLen_accepted hle (Nat.zero_le _) w body
  case smallCapacity => exact checkLen_fault_of_nmax_lt h8 w body

end Sys2Proof.Machine
end

section
/-! PROOF. The statements of reset and hazards (70_reset_and_hazards.md): a reset event, the acknowledgement of every
command, one read of `STATUS` for a sequence of commands, and lengths too short for the slots. -/

namespace Sys2Proof.Machine

/-! ### a reset event (70_reset_and_hazards.md R140) -/

theorem step_reset {s : State} {c : Option PortTx} {rest : List HostEvent} (h : s.pending = .reset c :: rest) :
    step s = .next (resetEngine { s with pending := rest }) :=
  step_event h

theorem resetEngine_status (s : State) : (resetEngine s).status = State.reset.status := rfl

/-- No byte is written after a reset, so that each reads as the free value of the new reset number. -/
theorem resetEngine_byteAt (s : State) (a : Nat) : (resetEngine s).byteAt a = Config.freeByte (s.epoch + 1) a := rfl

/-! ### every step answers (70_reset_and_hazards.md R151) -/

theorem hostEvent_answers (e : HostEvent) (s : State) : ∃ t, hostEvent e s = .next t := by
  rcases hostEvent_cases e s with ⟨_, -, h⟩ | ⟨_, _, _, -, -, h⟩ | ⟨_, -, h⟩ <;> exact ⟨_, h⟩

theorem step_answers (s : State) : ∃ t, step s = .next t := by
  cases hp : s.pending with
  | nil => exact ⟨s, step_idle hp⟩
  | cons e rest => exact step_event hp ▸ hostEvent_answers e { s with pending := rest }

theorem exec_pending {i : Instr} {s t : State} (h : exec i s = .next t) : t.pending = s.pending :=
  exec_preserves State.pending h rfl (fun _ _ => rfl) fun hi _ => (commandBody_same hi s).pending

/-- A command takes no transaction of the host's. -/
theorem dispatch_pending {w : Word} {s t : State} (h : dispatch w s = .next t) : t.pending = s.pending := by
  rcases dispatch_next_cases h with ⟨i, -, hi⟩ | ⟨-, rfl⟩ | ⟨-, rfl⟩
  · exact exec_pending hi
  · rfl
  · rfl

/-! ### sequences of commands in two parts (70_reset_and_hazards.md R146) -/

theorem runCommands_answers (l : List Instr) (s : State) : ∃ t, runCommands l s = .next t := by
  induction l generalizing s with
  | nil => exact ⟨s, rfl⟩
  | cons i l ih =>
    obtain ⟨u, hu⟩ := exec_answers i s
    rw [runCommands, hu]
    exact ih u

/-- The second part goes on from where the first has ended. -/
theorem runCommands_append {l : List Instr} {s u : State} (h : runCommands l s = .next u) (m : List Instr) :
    runCommands (l ++ m) s = runCommands m u := by
  induction l generalizing s with
  | nil => rw [Host.Outcome.next.inj h, List.nil_append]
  | cons i l ih =>
    obtain ⟨v, hv⟩ := exec_answers i s
    rw [runCommands, hv] at h
    rw [List.cons_append, runCommands, hv]
    exact ih h

/-- Only `CLRF` leads out of a latched fault (60_exceptions.md R126). -/
theorem fault_clear_of_runCommands {l : List Instr} (hl : .clrf ∉ l) {s t : State}
    (h : runCommands l s = .next t) (ht : t.fault = false) : s.fault = false := by
  refine Bool.eq_false_of_not_eq_true fun hs => ?_
  have ignored : s = t := Host.Outcome.next.inj ((runCommands_latched hl hs).symm.trans h)
  rw [ignored, ht] at hs
  cases hs

/-! ### masked and permuted, and back (70_reset_and_hazards.md R147) -/

theorem sameBytes.trans {s t u : State} (h : sameBytes s t) (g : sameBytes t u) : sameBytes s u :=
  fun a => (g a).trans (h a)

/-- The mask depends on the bytes, `KEY` and `NPIX` alone (41_masker.md R80). -/
theorem maskPixels_sameBytes_congr {s t : State} (h : sameBytes s t) (same : SameButPixels s t) :
    sameBytes (maskPixels s) (maskPixels t) := by
  intro a
  rw [maskPixels_byteAt, maskPixels_byteAt, same.seqLen, same.key, h a]

/-- The gather fetches a masked pixel of the sequence. -/
theorem permutePixels_maskPixels_pixel (s : State) {i : Nat} (hi : i < s.seqLen) :
    (permutePixels (maskPixels s)).pixel i = s.pixel (s.permAt i) ^^^ keyMask s.key := by
  have same := maskPixels_same s
  have hsrc : s.permAt i < s.seqLen := genPerm_getD_lt hi
  rw [permutePixels_pixel_lt _ (by rwa [same.seqLen]), same.permAt, maskPixels_pixel, if_pos hsrc]

theorem permutePixels_maskPixels_same (s : State) : SameButPixels s (permutePixels (maskPixels s)) :=
  (maskPixels_same s).trans (permutePixels_same _)

theorem maskPixels_unpermutePixels_same (s : State) : SameButPixels s (maskPixels (unpermutePixels s)) :=
  (unpermutePixels_same s).trans (maskPixels_same _)

/-- The scatter undoes the gather, and then the second mask cancels the first. -/
theorem unpermute_mask_restores (s : State) :
    sameBytes s (maskPixels (unpermutePixels (permutePixels (maskPixels s)))) := by
  have unpermuted : sameBytes (maskPixels s) (unpermutePixels (permutePixels (maskPixels s))) :=
    unpermutePixels_permutePixels_sameBytes _
  exact (maskPixels_maskPixels_sameBytes s).trans
    (maskPixels_sameBytes_congr unpermuted ((permutePixels_same _).trans (unpermutePixels_same _)))

/-- With fewer than 8 pixels the two stages run and `EMBED` fails its check. -/
theorem runCommands_mask_permute_embed_short {s : State} (hf : s.fault = false) (hn : s.seqLen ≤ s.nmax)
    (h8 : s.seqLen < 8) : runCommands [.mask, .permute, .embed] s =
      .next (raise .insufficientPixels (encode .embed) (permutePixels (maskPixels s))) := by
  have ready : s.ready 0 := ⟨hf, hn, Nat.zero_le _⟩
  have same := permutePixels_maskPixels_same s
  have stages : runCommands [.mask, .permute] s = .next (permutePixels (maskPixels s)) :=
    runCommands_pair_ready rfl rfl ready ready
  have faults : exec .embed (permutePixels (maskPixels s)) =
      .next (raise .insufficientPixels (encode .embed) (permutePixels (maskPixels s))) :=
    exec_insufficient rfl (same.fault.trans hf) (by rwa [same.seqLen, same.nmax]) (by rwa [same.seqLen])
  exact (runCommands_append stages [.embed]).trans (by simp only [runCommands, faults])

/-- `CLRF` makes the two commands after it run, whatever was latched. -/
theorem runCommands_clrf_unpermute_mask {s : State} (hn : s.seqLen ≤ s.nmax) :
    runCommands [.clrf, .unpermute, .mask] s = .next (maskPixels (unpermutePixels (clearFault s))) := by
  have ready : (clearFault s).ready 0 := ⟨rfl, hn, Nat.zero_le _⟩
  rw [runCommands, exec_clrf]
  exact runCommands_pair_ready rfl rfl ready ready

/-- The two stages do not look at the fault record: clearing it after them is clearing it before them. -/
theorem clearFault_raise_permutePixels_maskPixels (e : Cause) (w : Word) (s : State) :
    clearFault (raise e w (permutePixels (maskPixels s))) = permutePixels (maskPixels (clearFault s)) := rfl

/-! ### the empty sequence (70_reset_and_hazards.md R142) -/

/-- A command that takes any length writes pixels alone. -/
theorem commandBody_sameButPixels {i : Instr} (hi : i ∈ [Instr.mask, .permute, .unpermute]) (s : State) :
    SameButPixels s (commandBody i s) := by
  simp only [List.mem_cons, List.not_mem_nil, or_false] at hi
  rcases hi with rfl | rfl | rfl
  · exact maskPixels_same s
  · exact permutePixels_same s
  · exact unpermutePixels_same s

/-! ### the obligations -/

/-- Settles O8: the idle step and each event answer, and the command that a write to `CMD` runs leaves the rest of
the host's transactions. -/
theorem everyStepAnswersAndEveryCommandIsAcknowledged :
    Obligations.EveryStepAnswersAndEveryCommandIsAcknowledged := by
  refine ⟨step_answers, fun s a w rest hp ha => ?_⟩
  obtain ⟨t, hdispatch, hstep⟩ := dispatchFollowsTheRule.1 s a w rest hp ha
  exact ⟨{ t with resp := some .okWrite }, hstep, rfl, dispatch_pending hdispatch⟩

/-- Settles O23: a sequence without `CLRF` that began under a latched fault would have ended under it. -/
theorem oneReadOfStatusCoversASequence : Obligations.OneReadOfStatusCoversASequence := by
  refine ⟨fun l s hl hs => runCommands_latched hl hs, fun l m s t hlm h ht => ?_⟩
  have hm : .clrf ∉ m := fun hmem => hlm (List.mem_append_right l hmem)
  obtain ⟨u, hu⟩ := runCommands_answers l s
  have second : runCommands m u = .next t := (runCommands_append hu m).symm.trans h
  exact ⟨u, hu, fault_clear_of_runCommands hm second ht, second⟩

/-- Settles O48: `ENCRYPT` checks the length before its first stage and `EMBED` after the two others, which the way
back undoes in the state with the fault cleared. -/
theorem shortSequenceIsMaskedThenFaultsAndRecovers : Obligations.ShortSequenceIsMaskedThenFaultsAndRecovers := by
  intro s hf hn h8
  have same := permutePixels_maskPixels_same s
  refine ⟨exec_insufficient rfl hf hn h8, _, _, runCommands_mask_permute_embed_short hf hn h8, rfl, rfl, rfl,
    same.key, fun i hi => permutePixels_maskPixels_pixel s hi,
    runCommands_clrf_unpermute_mask (by rwa [raise_seqLen, raise_nmax, same.seqLen, same.nmax]), ?recovered⟩
  rw [clearFault_raise_permutePixels_maskPixels]
  have back := (permutePixels_maskPixels_same (clearFault s)).trans (maskPixels_unpermutePixels_same _)
  exact ⟨back.fault, back.key, unpermute_mask_restores (clearFault s)⟩

/-- Settles O52: the three commands keep every byte at or beyond `NPIX`, which here is every byte, and the four fail
their check. -/
theorem emptySequenceIsHarmless : Obligations.EmptySequenceIsHarmless := by
  intro s hf hnpix
  have empty : s.seqLen = 0 := congrArg BitVec.toNat hnpix
  have hle : s.seqLen ≤ s.nmax := empty ▸ Nat.zero_le _
  refine ⟨fun i hi => ?unchanged, fun i hi => ?insufficient⟩
  case unchanged =>
    have hmin : minPixels i = some 0 := minPixels_eq_zero_iff.2 hi
    have ready : s.ready 0 := ⟨hf, hle, Nat.zero_le _⟩
    have beyond := commandBody_sameBeyond hmin ready
    rw [empty] at beyond
    exact ⟨commandBody i s, exec_ready hmin ready, fun a => beyond a (Nat.zero_le a),
      commandBody_sameButPixels hi s⟩
  case insufficient => exact exec_insufficient (minPixels_eq_eight_iff.2 hi) hf hle (by omega)

/-- Settles O15: the fields of the state after a reset, the `STATUS` word of `State.reset`, and the unwritten pixels. -/
theorem resetEventLeavesTheResetRegisters : Obligations.ResetEventLeavesTheResetRegisters := by
  intro s c rest hp
  obtain ⟨-, -, hstatus, -⟩ := resetStateHoldsTheResetValues
  exact ⟨resetEngine { s with pending := rest }, step_reset hp, rfl, rfl, (resetEngine_status _).trans hstatus, rfl,
    rfl, rfl, rfl, rfl, rfl, resetEngine_byteAt _⟩

end Sys2Proof.Machine
end

section
/-! PROOF. The encoding table's words written out bit by bit (30_encoding.md section 3). -/

namespace Sys2Proof.Machine

/-- Settles O3: a word decodes to a command when it is the command's encoding, and each of the five is, by
evaluating the encoder and not the decoder. -/
theorem writtenWordsDecode : Obligations.WrittenWordsDecode :=
  ⟨decode_eq_ok_iff.2 rfl, decode_eq_ok_iff.2 rfl, decode_eq_ok_iff.2 rfl, decode_eq_ok_iff.2 rfl,
    decode_eq_ok_iff.2 rfl⟩

end Sys2Proof.Machine
end
